-- ==== Sys2Proof/Word.lean ====
section
/-! DEFINITION. The word types of the AES-128 engine and its port bundles (spec/00_scope.md R12 to R15,
spec/10_state.md R31, spec/30_encoding.md R90, R100). -/

namespace Sys2Proof

/-- A byte: an 8-bit unsigned value, also an element of GF(2^8) (R10, R110). -/
abbrev Byte := BitVec 8

/-- A word: 4 bytes, one State column (R15). -/
abbrev Word := BitVec 32

/-- A 128-bit value: a block, a key, a round key or the AES State (R10, R14). -/
abbrev Block := BitVec 128

/-- The round-key store: 44 words of 32 bits (R39, R67). -/
abbrev RoundKeyStore := Vector Word 44

/-- The command format of R90: the two fields of the command word and the two operand ports, presented
in parallel at one edge. -/
structure CommandPorts where
  /-- `cmd_valid`, bit 3 of the command word. -/
  cmdValid : Bool
  /-- `cmd_op[2:0]`, bits 2..0 of the command word. -/
  cmdOp : BitVec 3
  /-- `key_in[127:0]`, read by KEY_EXPAND. -/
  keyIn : Block
  /-- `data_in[127:0]`, read by ENCRYPT and DECRYPT. -/
  dataIn : Block
deriving DecidableEq, Repr

/-- All inputs sampled at one rising edge of `clk` (R31): `rst` and the command ports. -/
structure EdgeInputs where
  /-- `rst`, synchronous reset, active high (R290). -/
  rst : Bool
  /-- The command ports. -/
  cmd : CommandPorts
deriving DecidableEq, Repr

/-- One edge as a program's encoding writes it (R100): the command word, `rst`, and the operand port the
command reads, where it reads one. -/
structure EncodedEdge where
  cmdWord : BitVec 4
  rst : Bool
  operand : Option Block
deriving DecidableEq, Repr

end Sys2Proof
end

