-- ==== Sys2Proof/Syntax.lean ====
section
/-! DEFINITION. The instruction set: one constructor per row of spec/opcode_table.json (R93). An instruction
carries the operand its command reads (R91) and, where the row leaves opcode bits open, those bits. -/

namespace Sys2Proof

/-- The commands of R93. `reserved` carries its opcode `cmd_op`, which is 0b100 to 0b111 in a well-formed
instruction; `noCommand` carries the ignored `cmd_op` of an edge with `cmd_valid = 0`. -/
inductive Instr where
  /-- NOP, R223. -/
  | nop
  /-- KEY_EXPAND with the key on `key_in`, R224. -/
  | keyExpand (key : Block)
  /-- ENCRYPT with the block on `data_in`, R225. -/
  | encrypt (data : Block)
  /-- DECRYPT with the block on `data_in`, R226. -/
  | decrypt (data : Block)
  /-- A reserved opcode, R94, R227. -/
  | reserved (op : BitVec 3)
  /-- No command is presented, R95. -/
  | noCommand (op : BitVec 3)
deriving DecidableEq, Repr

end Sys2Proof
end

