-- ==== Sys2Proof/WellFormed.lean ====
section
/-! DEFINITION. Which instructions the encoding admits (R93, R94). -/

namespace Sys2Proof

/-- An instruction is well formed when its fields take values that R93's rows admit: a reserved opcode is one
of 0b100 to 0b111. Every operand value and every ignored `cmd_op` is admitted (R91, R95). -/
def Instr.wellFormed : Instr → Bool
  | .nop => true
  | .keyExpand _ => true
  | .encrypt _ => true
  | .decrypt _ => true
  | .reserved op => decide (4 ≤ op.toNat)
  | .noCommand _ => true

end Sys2Proof
end

