-- ==== Sys2Proof/Decode.lean ====
section
/-! DEFINITION. The decoder and the encoder of the command ports (R90 to R97), the encoding of a program's
edge (R100), and the decoder as the opcode table numbers its bits. -/

namespace Sys2Proof

/-- `cmd_word[3:0]`, the concatenation of `cmd_valid` and `cmd_op[2:0]` (R90). -/
def CommandPorts.word (p : CommandPorts) : BitVec 4 :=
  BitVec.ofBool p.cmdValid ++ p.cmdOp

/-- The command ports that carry a command word and the two operands (R90). -/
def CommandPorts.ofWord (w : BitVec 4) (keyIn dataIn : Block) : CommandPorts where
  cmdValid := w.getLsbD 3
  cmdOp := w.extractLsb' 0 3
  keyIn := keyIn
  dataIn := dataIn

/-- The decoder of R93: "`cmd_valid = 0` → none; `cmd_op[2] = 1` → reserved; otherwise `cmd_op[1:0]` selects
NOP, KEY_EXPAND, ENCRYPT, DECRYPT in that order". It is total (R97): every value of the ports is an
instruction, so it rejects nothing. -/
def decode (p : CommandPorts) : Instr :=
  if p.cmdValid = false then .noCommand p.cmdOp
  else if p.cmdOp.getLsbD 2 then .reserved p.cmdOp
  else if p.cmdOp.extractLsb' 0 2 = 0b00#2 then .nop
  else if p.cmdOp.extractLsb' 0 2 = 0b01#2 then .keyExpand p.keyIn
  else if p.cmdOp.extractLsb' 0 2 = 0b10#2 then .encrypt p.dataIn
  else .decrypt p.dataIn

/-- Why a bit pattern that is not the engine's ports is no command. -/
inductive DecodeError where
  /-- Bits above the 4-bit command word are set; the command word has 4 bits and no other length (R90, R96).
  Raised by `decodeBits`; safe. -/
  | notACommandWord
  /-- A command that reads an operand port is written without its operand (R100). Raised by `decodeEdge`; safe. -/
  | operandMissing
  /-- A command that reads no operand port is written with one (R100). Raised by `decodeEdge`; safe. -/
  | operandUnexpected
deriving DecidableEq, Repr

/-- The decoder on a bit pattern that holds the command word in its low 4 bits (log 10), with the operand
ports beside it: total, and a pattern with higher bits set is rejected by name. -/
def decodeBits (w : Nat) (keyIn dataIn : Block) : Except DecodeError Instr :=
  if w < 16 then .ok (decode (.ofWord (BitVec.ofNat 4 w) keyIn dataIn)) else .error .notACommandWord

/-- The instruction the decoder reads from a row of the opcode table: the bits of `w` below `nbits` are the
command word, all other bits (the operand ports) are 0. -/
def decodeTableWord (nbits w : Nat) : Option Instr :=
  match decodeBits (w % 2 ^ nbits) 0 0 with
  | .ok i => some i
  | .error _ => none

/-- `cmd_valid` of an instruction (R93). -/
def Instr.cmdValid : Instr → Bool
  | .noCommand _ => false
  | .nop | .keyExpand _ | .encrypt _ | .decrypt _ | .reserved _ => true

/-- `cmd_op[2:0]` of an instruction (R93). -/
def Instr.cmdOp : Instr → BitVec 3
  | .nop => 0b000#3
  | .keyExpand _ => 0b001#3
  | .encrypt _ => 0b010#3
  | .decrypt _ => 0b011#3
  | .reserved op => op
  | .noCommand op => op

/-- The operand an instruction reads (R91). -/
def Instr.operand : Instr → Option Block
  | .keyExpand key => some key
  | .encrypt data => some data
  | .decrypt data => some data
  | .nop | .reserved _ | .noCommand _ => none

/-- The encoder: the port values that present an instruction (R93). A port the instruction does not read
"may hold any value" (R91), so it is left at what `u` holds on it. -/
def encode (u : CommandPorts) (i : Instr) : CommandPorts where
  cmdValid := i.cmdValid
  cmdOp := i.cmdOp
  keyIn := match i with
    | .keyExpand key => key
    | .nop | .encrypt _ | .decrypt _ | .reserved _ | .noCommand _ => u.keyIn
  dataIn := match i with
    | .encrypt data => data
    | .decrypt data => data
    | .nop | .keyExpand _ | .reserved _ | .noCommand _ => u.dataIn

/-- The encoding of one edge of a program (R100). -/
def encodeEdge (e : EdgeInputs) : EncodedEdge where
  cmdWord := e.cmd.word
  rst := e.rst
  operand := (decode e.cmd).operand

/-- The port values of an encoded edge (R100); the ports the command does not read are left at what `u` holds
on them. An encoding that lacks the command's operand, or gives one to a command that reads none, is
rejected by name. -/
def decodeEdge (u : CommandPorts) (e : EncodedEdge) : Except DecodeError EdgeInputs :=
  match decode (.ofWord e.cmdWord u.keyIn u.dataIn), e.operand with
  | .keyExpand _, some key => .ok ⟨e.rst, .ofWord e.cmdWord key u.dataIn⟩
  | .encrypt _, some data => .ok ⟨e.rst, .ofWord e.cmdWord u.keyIn data⟩
  | .decrypt _, some data => .ok ⟨e.rst, .ofWord e.cmdWord u.keyIn data⟩
  | .keyExpand _, none | .encrypt _, none | .decrypt _, none => .error .operandMissing
  | .nop, none | .reserved _, none | .noCommand _, none => .ok ⟨e.rst, .ofWord e.cmdWord u.keyIn u.dataIn⟩
  | .nop, some _ | .reserved _, some _ | .noCommand _, some _ => .error .operandUnexpected

end Sys2Proof
end

