-- ==== Sys2Proof/Config.lean ====
section
/-! DEFINITION. What is fixed for the machine, and the free values: the contents of `st` and of the
round-key store after an edge with `rst = 1`, which the spec leaves unspecified (R46, R290). -/

namespace Sys2Proof

/-- FREE VALUE (DESIGN CHOICE, log 4): the content of `st` after the `n`-th reset edge, given its content
before it: "they may keep their old contents or take any value" (R290). No body, so no proof can use a
particular value. -/
opaque Config.freeBlock (n : Nat) (old : Block) : Block

/-- FREE VALUE (DESIGN CHOICE, log 4): the content of `RKS[i]` after the `n`-th reset edge, given its content
before it (R290). -/
opaque Config.freeWord (n i : Nat) (old : Word) : Word

/-- Progress edges of KEY_EXPAND: one per word `w[4]` to `w[43]` (R10, R302). -/
abbrev Config.keyExpandEdges : Nat := 40

/-- Progress edges of ENCRYPT and of DECRYPT: one per orchestrator stage (R10, R302). -/
abbrev Config.blockEdges : Nat := 11

/-- How many idle edges the host's wait for `busy = 0` takes at most (log 12): the longest latency of R302. -/
abbrev Config.hostWaitEdges : Nat := 40

end Sys2Proof
end

