-- ==== Sys2Proof/Machine/State.lean ====
section
/-! DEFINITION. The machine's state (spec/10_state.md R33 to R46), why a step can stop, and the state right
after reset. -/

namespace Sys2Proof.Machine

/-- The operation in progress (R34). Its binary encoding is not specified (log 11). -/
inductive Phase where
  /-- No operation in progress; commands are accepted. -/
  | idle
  /-- Key expansion in progress. -/
  | kexp
  /-- Encryption of one block in progress. -/
  | enc
  /-- Decryption of one block in progress. -/
  | dec
deriving DecidableEq, Repr

/-- The four values of `err_code` (R42, R270). -/
inductive ErrCode where
  /-- 0, ERR_NONE: accepted, or reset. -/
  | errNone
  /-- 1, ERR_ILLEGAL: reserved opcode. -/
  | errIllegal
  /-- 2, ERR_BUSY: operation in progress. -/
  | errBusy
  /-- 3, ERR_NOKEY: no valid key schedule. -/
  | errNoKey
deriving DecidableEq, Repr

/-- Every register of the engine (R33 to R42), the port values the host drives at the coming edges (R31), and
the model's own counter for free values. -/
structure State where
  /-- `phase`: which operation is in progress (R34). -/
  phase : Phase
  /-- `rnd`: a 4-bit register holding 0..10; the next orchestrator stage (R35). -/
  rnd : Fin 11
  /-- `kidx`: a 6-bit register holding 0..44; the next key word (R36). -/
  kidx : Fin 45
  /-- `st`: the AES State of the block in progress (R37). -/
  st : Block
  /-- `data_out`: the result of the most recently completed block command (R38). -/
  dataOut : Block
  /-- `RKS[0..43]`: the round-key store (R39). -/
  rks : RoundKeyStore
  /-- `key_valid` (R40). -/
  keyValid : Bool
  /-- `done` (R41). -/
  done : Bool
  /-- `err_code` (R42). -/
  errCode : ErrCode
  /-- The values of the input ports at the coming edges, the next edge first (log 1). -/
  inputs : List EdgeInputs
  /-- The model's own: how many reset edges there were; it selects the free values (log 4). -/
  freeCount : Nat
deriving DecidableEq, Repr

/-- Why the machine stops with a fault. -/
inductive Fault where
  /-- A key-expansion edge with `kidx` outside 4..43, where `next_word` would index the round-key store outside
  0..43. "No index outside 0..43 is ever formed" (R67): no run from reset reaches it (R49). Raised by
  `keyExpandStage`; safe (log 5). -/
  | keyIndexOutOfRange
deriving DecidableEq, Repr

/-- Why an instruction has no meaning in the model. -/
inductive Refusal where
  /-- The instruction of this mnemonic is not modelled yet. Raised by the dispatch only; safe. -/
  | notModelled (mnemonic : String)
deriving DecidableEq, Repr

/-- The three outcomes of a step of this machine. -/
abbrev Result := Host.Outcome State Fault Refusal

/-- The state after reset (R46, R290). `st` and `RKS` are unspecified there and hold 0 here (DESIGN CHOICE,
logs 2 and 3); no port values are listed yet (log 1); the free-value counter is 0 (log 4). -/
def State.reset : State where
  phase := .idle
  rnd := 0
  kidx := 0
  st := 0
  dataOut := 0
  rks := Vector.replicate 44 0
  keyValid := false
  done := false
  errCode := .errNone
  inputs := []
  freeCount := 0

end Sys2Proof.Machine
end

