-- ==== Sys2Proof/Machine/Flags.lean ====
section
/-! DEFINITION. The status flags and outputs (spec/10_state.md R32, R40 to R43) and the acceptance test
(spec/45_commands.md R222). -/

namespace Sys2Proof.Machine

/-- `busy = (phase != IDLE)` (R43). -/
def State.busy (s : State) : Bool := decide (s.phase ≠ .idle)

/-- The 2-bit code of an error value (R42, R270). -/
def ErrCode.bits : ErrCode → BitVec 2
  | .errNone => 0
  | .errIllegal => 1
  | .errBusy => 2
  | .errNoKey => 3

/-- The output ports (R32). -/
structure Outputs where
  dataOut : Block
  busy : Bool
  done : Bool
  keyValid : Bool
  errCode : BitVec 2
deriving DecidableEq, Repr

/-- What the host reads after an edge: a function of the registers alone (R32, R234). -/
def State.outputs (s : State) : Outputs where
  dataOut := s.dataOut
  busy := s.busy
  done := s.done
  keyValid := s.keyValid
  errCode := s.errCode.bits

/-- `reject_cause(S, op)`, highest priority first: reserved opcode, operation in progress, no key schedule,
accepted (R222). -/
def rejectCause (s : State) (op : BitVec 3) : ErrCode :=
  if op = 0b100#3 ∨ op = 0b101#3 ∨ op = 0b110#3 ∨ op = 0b111#3 then .errIllegal
  else if s.phase ≠ .idle then .errBusy
  else if (op = 0b010#3 ∨ op = 0b011#3) ∧ s.keyValid = false then .errNoKey
  else .errNone

end Sys2Proof.Machine
end

