-- ==== Sys2Proof/Machine/Operands.lean ====
section
/-! DEFINITION. Byte order and layout: bytes of a block, elements and columns of a State, bytes of a word, the
key's initial words, round keys, and the reads and writes of the round-key store
(R14, R15, R63 to R65, R67, R68, R92). -/

namespace Sys2Proof.Machine

/-- `byte(v, i) = v[127-8i : 120-8i]`: byte 0 is the most significant byte (R14, R63). -/
def byte (v : Block) (i : Fin 16) : Byte := v.extractLsb' (120 - 8 * i.val) 8

/-- `state_of(b0..b15)`: the block whose byte `i` is `b i` (R14). -/
def blockOf (b : Fin 16 → Byte) : Block :=
  b 0 ++ b 1 ++ b 2 ++ b 3 ++ b 4 ++ b 5 ++ b 6 ++ b 7 ++
    b 8 ++ b 9 ++ b 10 ++ b 11 ++ b 12 ++ b 13 ++ b 14 ++ b 15

/-- The index of State element (r, c) in its block: "column c, row r holds byte c*4+r" (R14, R64). -/
def elemIndex (r c : Fin 4) : Fin 16 := ⟨4 * c.val + r.val, by omega⟩

/-- `s[r][c]`, row `r` and column `c` (R14, R64). -/
def elem (s : Block) (r c : Fin 4) : Byte := byte s (elemIndex r c)

/-- The State whose element (r, c) is `f r c` (R14). -/
def stateOf (f : Fin 4 → Fin 4 → Byte) : Block :=
  blockOf fun i => f ⟨i.val % 4, by omega⟩ ⟨i.val / 4, by omega⟩

/-- Column `c` of a State as a word, `st[127-32c : 96-32c]` (R14, R64). -/
def column (s : Block) (c : Fin 4) : Word := s.extractLsb' (96 - 32 * c.val) 32

/-- `wbyte(w, j) = w[31-8j : 24-8j]`: byte 0 is the "first byte" (R15, R65). -/
def wbyte (w : Word) (j : Fin 4) : Byte := w.extractLsb' (24 - 8 * j.val) 8

/-- The word whose byte `j` is `b j` (R15). -/
def wordOf (b : Fin 4 → Byte) : Word := b 0 ++ b 1 ++ b 2 ++ b 3

/-- `w[j] = K[127-32j : 96-32j]`, the key's initial words (R65, R92, R170). -/
def keyWord (key : Block) (j : Fin 4) : Word := column key j

/-- The writes `RKS[j] <- key_in[127-32j : 96-32j]` for j = 0..3 (R67, R224). -/
def loadKey (key : Block) (rks : RoundKeyStore) : RoundKeyStore :=
  (((rks.set 0 (keyWord key 0)).set 1 (keyWord key 1)).set 2 (keyWord key 2)).set 3 (keyWord key 3)

/-- `RoundKey(k)`, the concatenation of `RKS[4k]` to `RKS[4k+3]`, for `k` in 0..10 (R68). -/
def roundKey (rks : RoundKeyStore) (k : Fin 11) : Block :=
  rks[4 * k.val] ++ rks[4 * k.val + 1] ++ rks[4 * k.val + 2] ++ rks[4 * k.val + 3]

end Sys2Proof.Machine
end

