-- ==== Sys2Proof/Machine/GfArith.lean ====
section
/-! DEFINITION. GF(2^8) arithmetic: multiply-by-x, the product, the round constants, the field inverse of the
S-box's cross-check (spec/40_gf_arith.md R110 to R117, spec/41_sbox.md R136). Field addition is `^^^` (R113). -/

namespace Sys2Proof.Machine

/-- `xtime(b)`, multiply by x: shift left, and where the bit shifted out was 1, XOR 00011011 (R111). -/
def xtime (b : Byte) : Byte := if b.getLsbD 7 then (b <<< 1) ^^^ 0x1B#8 else b <<< 1

/-- The loop of `gmul` with `n` bits of `b` left to do: `t` is `xtime` applied 8 - n times to `a` (R112). -/
def gmulLoop (b : Byte) : Nat → Byte → Byte → Byte
  | 0, _, acc => acc
  | n + 1, t, acc => gmulLoop b n (xtime t) (if b.getLsbD (7 - n) then acc ^^^ t else acc)

/-- `gmul(a, b)`, the product in GF(2^8): for each set bit `k` of `b`, accumulate `xtime` applied `k` times
to `a` (R112). -/
def gmul (a b : Byte) : Byte := gmulLoop b 8 a 0

/-- `xtime` applied `n` times (R112). -/
def xtimeN : Nat → Byte → Byte
  | 0, b => b
  | n + 1, b => xtime (xtimeN n b)

/-- `rc(i)` for `i` in 1..10: rc(1) = 0x01, rc(i) = xtime(rc(i-1)) (R114). `rc(0)` is never formed: every use
is `rc (i / 4)` with 4 ≤ i (R173, log 16). -/
def rc (i : Nat) : Byte := xtimeN (i - 1) 0x01#8

/-- The loop of `gfInverse`: square, and multiply the square in, `n` times. -/
def gfInverseLoop : Nat → Byte → Byte → Byte
  | 0, _, acc => acc
  | n + 1, t, acc => gfInverseLoop n (gmul t t) (gmul acc (gmul t t))

/-- `inv(b)` of R136: 0x00 for 0x00, otherwise the multiplicative inverse of R115, computed as the product
b^2 · b^4 · … · b^128 = b^254. That it is the inverse is stated as an obligation, not assumed. -/
def gfInverse (b : Byte) : Byte := gfInverseLoop 7 b 0x01#8

/-- The affine map `A` of R136, bit by bit: `A(a)[i] = a[i] ^ a[(i+4) mod 8] ^ a[(i+5) mod 8] ^ a[(i+6) mod 8] ^
a[(i+7) mod 8] ^ c[i]` with `c = 0x63`; the XOR of four left rotations of `a`, since bit `i` of `a`
rotated left by `m` is `a[(i - m) mod 8]`. -/
def affine (a : Byte) : Byte :=
  a ^^^ a.rotateLeft 4 ^^^ a.rotateLeft 3 ^^^ a.rotateLeft 2 ^^^ a.rotateLeft 1 ^^^ 0x63#8

end Sys2Proof.Machine
end

