-- ==== Sys2Proof/Machine/KeySchedule.lean ====
section
/-! DEFINITION. The key-schedule expander (spec/43_key_schedule.md R170 to R175). -/

namespace Sys2Proof.Machine

/-- `RotWord(w)`: bytes (a0, a1, a2, a3) become (a1, a2, a3, a0), that is `w[23:0]` before `w[31:24]` (R171). -/
def rotWord (w : Word) : Word := w.extractLsb' 0 24 ++ w.extractLsb' 24 8

/-- `SubWord(w)`: the forward S-box on every byte of a word (R172). -/
def subWord (w : Word) : Word := wordOf fun j => substituteByte (wbyte w j) SBOX

/-- `T(w, i)`: rotate, substitute, and XOR `rc(i div 4)` into the first byte (R173). -/
def tWord (w : Word) (i : Nat) : Word := subWord (rotWord w) ^^^ (rc (i / 4) ++ 0#24)

/-- `next_word(w, i)` for `i` in 4..43: the recurrence, which reads `w[i-4]` and `w[i-1]` (R174). -/
def nextWord (w : RoundKeyStore) (i : Nat) (h : 4 ≤ i ∧ i < 44) : Word :=
  if i % 4 = 0 then w[i - 4] ^^^ tWord w[i - 1] i else w[i - 4] ^^^ w[i - 1]

/-- The schedule of key `key` with its first `4 + n` words computed, in order (R175); the words not yet computed
are 0. -/
def expandKeyTo (key : Block) : Nat → RoundKeyStore
  | 0 => loadKey key (Vector.replicate 44 0)
  | n + 1 =>
    if h : n + 4 < 44 then
      (expandKeyTo key n).set (n + 4) (nextWord (expandKeyTo key n) (n + 4) ⟨by omega, h⟩)
    else expandKeyTo key n

/-- `ExpandKey(K)`: the 44 words of the schedule (R175). -/
def expandKey (key : Block) : RoundKeyStore := expandKeyTo key 40

end Sys2Proof.Machine
end

