-- ==== Sys2Proof/Machine/RowCol.lean ====
section
/-! DEFINITION. The ShiftRows network, the MixColumns multiplier, their inverses, and the round-key XOR
(spec/42_rowcol.md R150 to R157). -/

namespace Sys2Proof.Machine

/-- `ShiftRows(s)`: `result[r][c] = s[r][(c + r) mod 4]` (R150). -/
def shiftRows (s : Block) : Block :=
  stateOf fun r c => elem s r ⟨(c.val + r.val) % 4, by omega⟩

/-- `InvShiftRows(s)`: `result[r][c] = s[r][(c - r) mod 4]`, the difference taken in 0..3 (R151, R13). -/
def invShiftRows (s : Block) : Block :=
  stateOf fun r c => elem s r ⟨(c.val + 4 - r.val) % 4, by omega⟩

/-- A 4×4 matrix over GF(2^8), row by row. -/
abbrev MixMatrix := Vector (Vector Byte 4) 4

/-- The forward mix matrix (R152). -/
def MIX : MixMatrix :=
  #v[#v[0x02, 0x03, 0x01, 0x01],
     #v[0x01, 0x02, 0x03, 0x01],
     #v[0x01, 0x01, 0x02, 0x03],
     #v[0x03, 0x01, 0x01, 0x02]]

/-- The inverse mix matrix (R153). -/
def INV_MIX : MixMatrix :=
  #v[#v[0x0E, 0x0B, 0x0D, 0x09],
     #v[0x09, 0x0E, 0x0B, 0x0D],
     #v[0x0D, 0x09, 0x0E, 0x0B],
     #v[0x0B, 0x0D, 0x09, 0x0E]]

/-- A matrix times every column of a State: `result[r][c]` is the XOR over j of `gmul(m[r][j], s[j][c])`
(R154, R155). -/
def matrixTimes (m : MixMatrix) (s : Block) : Block :=
  stateOf fun r c =>
    gmul m[r][0] (elem s 0 c) ^^^ gmul m[r][1] (elem s 1 c) ^^^
      gmul m[r][2] (elem s 2 c) ^^^ gmul m[r][3] (elem s 3 c)

/-- `MixColumns(s)` (R154). -/
def mixColumns (s : Block) : Block := matrixTimes MIX s

/-- `InvMixColumns(s)` (R155). -/
def invMixColumns (s : Block) : Block := matrixTimes INV_MIX s

/-- `AddRoundKey(s, k)`: `s ^ RoundKey(k)` (R157). -/
def addRoundKey (rks : RoundKeyStore) (s : Block) (k : Fin 11) : Block := s ^^^ roundKey rks k

end Sys2Proof.Machine
end

