-- ==== Sys2Proof/Machine/Orchestrator.lean ====
section
/-! DEFINITION. The orchestrator's stage functions and the whole cipher in both directions
(spec/44_orchestrator.md R190 to R198). The round keys are read from the store `rks`. -/

namespace Sys2Proof.Machine

/-- `EncInitial(s)` (R193). -/
def encInitial (rks : RoundKeyStore) (s : Block) : Block := addRoundKey rks s 0

/-- `EncRound(s, k)` (R191). -/
def encRound (rks : RoundKeyStore) (s : Block) (k : Fin 11) : Block :=
  addRoundKey rks (mixColumns (shiftRows (subBytes s))) k

/-- `EncFinal(s)`, with the MixColumns bypass (R192). -/
def encFinal (rks : RoundKeyStore) (s : Block) : Block :=
  addRoundKey rks (shiftRows (subBytes s)) 10

/-- `DecFirst(s)`, undoing the Final round (R195). -/
def decFirst (rks : RoundKeyStore) (s : Block) : Block :=
  invSubBytes (invShiftRows (addRoundKey rks s 10))

/-- `DecRound(s, k)`, undoing round `k` (R196). -/
def decRound (rks : RoundKeyStore) (s : Block) (k : Fin 11) : Block :=
  invSubBytes (invShiftRows (invMixColumns (addRoundKey rks s k)))

/-- `DecLast(s)`, undoing Initial (R197). -/
def decLast (rks : RoundKeyStore) (s : Block) : Block := addRoundKey rks s 0

/-- The rounds with MixColumns, in encryption order: 1..9 (R194). -/
def innerRounds : List (Fin 11) := [1, 2, 3, 4, 5, 6, 7, 8, 9]

/-- `Cipher(p)` (R194). -/
def cipher (rks : RoundKeyStore) (p : Block) : Block :=
  encFinal rks (innerRounds.foldl (encRound rks) (encInitial rks p))

/-- `InvCipher(c)` (R198). -/
def invCipher (rks : RoundKeyStore) (c : Block) : Block :=
  decLast rks (innerRounds.reverse.foldl (decRound rks) (decFirst rks c))

end Sys2Proof.Machine
end

