-- ==== Sys2Proof/Machine/Ops.lean ====
section
/-! DEFINITION. The shared operations: rejecting and accepting a command (the engine's only abnormal outcome and
its counterpart, R228, R229, R275), the start registers of each command (R224 to R226), the progress of the
operation in progress (R230 to R232), and the reset edge (R290). -/

namespace Sys2Proof.Machine

/-- `reject(cause)`: writes `err_code` and nothing else (R228). Entry into an error saves nothing, masks nothing
and goes nowhere (R275); there is no return (R276). -/
def reject (cause : ErrCode) (s : State) : State := { s with errCode := cause }

/-- What every accepted command writes: `err_code <- ERR_NONE`, `done <- 0` (R229). -/
def accept (s : State) : State := { s with errCode := .errNone, done := false }

/-- A command other than NOP with opcode `op` is presented (part (1) of R220): the acceptance test of R222 on the
state before the edge, then either the rejection or the acceptance with the command's own writes. -/
def present (op : BitVec 3) (start : State → State) (s : State) : Result :=
  match rejectCause s op with
  | .errNone => .next (start (accept s))
  | .errIllegal => .next (reject .errIllegal s)
  | .errBusy => .next (reject .errBusy s)
  | .errNoKey => .next (reject .errNoKey s)

/-- KEY_EXPAND's own writes at its accepting edge (R224). -/
def startKeyExpand (key : Block) (s : State) : State :=
  { s with rks := loadKey key s.rks, kidx := 4, phase := .kexp, keyValid := false }

/-- ENCRYPT's own writes at its accepting edge (R225). -/
def startEncrypt (data : Block) (s : State) : State :=
  { s with st := data, rnd := 0, phase := .enc }

/-- DECRYPT's own writes at its accepting edge (R226). -/
def startDecrypt (data : Block) (s : State) : State :=
  { s with st := data, rnd := 10, phase := .dec }

/-- KEY_EXPAND progress (R230). `s` is the state before the edge, which is all it reads; `acc` holds part (1)'s
writes of the same edge, and the registers it writes are written there. Outside 4..43 the index `kidx`
has no word to compute and the step is a fault (log 5). -/
def keyExpandStage (s acc : State) : Result :=
  if h : 4 ≤ s.kidx.val ∧ s.kidx.val < 44 then
    let acc' := { acc with
      rks := acc.rks.set s.kidx.val (nextWord s.rks s.kidx.val h)
      kidx := ⟨s.kidx.val + 1, by omega⟩ }
    if s.kidx.val = 43 then .next { acc' with phase := .idle, keyValid := true, done := true }
    else .next acc'
  else .fault .keyIndexOutOfRange

/-- The last stage of a block: the result goes to `st` and to `data_out`, and the operation is complete
(R231, R232). -/
def finishBlock (r : Block) (acc : State) : State :=
  { acc with st := r, dataOut := r, phase := .idle, done := true }

/-- A stage of a block that is not the last: the State and the next stage's number (R231, R232). -/
def nextStage (r : Block) (k : Fin 11) (acc : State) : State := { acc with st := r, rnd := k }

/-- ENCRYPT progress: the stage that `rnd` names (R202, R231). -/
def encryptStage (s acc : State) : State :=
  if s.rnd.val = 0 then nextStage (encInitial s.rks s.st) 1 acc
  else if h : s.rnd.val ≤ 9 then nextStage (encRound s.rks s.st s.rnd) ⟨s.rnd.val + 1, by omega⟩ acc
  else finishBlock (encFinal s.rks s.st) acc

/-- DECRYPT progress: the stage that `rnd` names (R203, R232). -/
def decryptStage (s acc : State) : State :=
  if s.rnd.val = 10 then nextStage (decFirst s.rks s.st) 9 acc
  else if 1 ≤ s.rnd.val then nextStage (decRound s.rks s.st s.rnd) ⟨s.rnd.val - 1, by omega⟩ acc
  else finishBlock (decLast s.rks s.st) acc

/-- Part (2) of R220, the progress of the operation in progress before the edge. It reads the state before the
edge, `s`, "never S'". -/
def progress (s acc : State) : Result :=
  match s.phase with
  | .idle => .next acc
  | .kexp => keyExpandStage s acc
  | .enc => .next (encryptStage s acc)
  | .dec => .next (decryptStage s acc)

/-- The registers after an edge with `rst = 1` (R46, R290): the reset values; `st` and `RKS` are unspecified and
take free values (log 4). The coming edges' port values are the host's and stay. -/
def resetEdge (s : State) : State :=
  { State.reset with
    st := Config.freeBlock s.freeCount s.st
    rks := Vector.ofFn fun i => Config.freeWord s.freeCount i.val s.rks[i]
    inputs := s.inputs
    freeCount := s.freeCount + 1 }

end Sys2Proof.Machine
end

