-- ==== Sys2Proof/Machine/Commands.lean ====
section
/-! DEFINITION. The commands (spec/45_commands.md R223 to R227, spec/30_encoding.md R95): what each presented
command does at its edge, part (1) of R220. The progress of an operation already running, part (2), is the
edge's own and is added by `edge` (log 8). -/

namespace Sys2Proof.Machine

/-- NOP: "no write of any kind by part (1)", never rejected (R223). -/
def execNop (s : State) : Result := .next s

/-- KEY_EXPAND: accepted when idle, otherwise rejected with ERR_BUSY; never ERR_NOKEY (R224). -/
def execKeyExpand (key : Block) (s : State) : Result := present 0b001#3 (startKeyExpand key) s

/-- ENCRYPT: accepted when idle with a valid key schedule, otherwise ERR_BUSY or ERR_NOKEY (R225). -/
def execEncrypt (data : Block) (s : State) : Result := present 0b010#3 (startEncrypt data) s

/-- DECRYPT: accepted when idle with a valid key schedule, otherwise ERR_BUSY or ERR_NOKEY (R226). -/
def execDecrypt (data : Block) (s : State) : Result := present 0b011#3 (startDecrypt data) s

/-- A reserved opcode: `err_code <- ERR_ILLEGAL` in every phase, and nothing else (R227, R228). -/
def execReserved (_op : BitVec 3) (s : State) : Result := .next (reject .errIllegal s)

/-- No command: "no command rule applies", whatever `cmd_op` holds (R95). -/
def execNoCommand (_op : BitVec 3) (s : State) : Result := .next s

end Sys2Proof.Machine
end

