-- ==== Sys2Proof/Machine/Dispatch.lean ====
section
/-! DEFINITION. The meaning of each instruction, one arm per constructor. -/

namespace Sys2Proof.Machine

-- Each arm is one direct call of the instruction's meaning.
def exec (i : Instr) (s : State) : Host.Outcome State Fault Refusal :=
  match i with
  | .nop => Sys2Proof.Machine.execNop s
  | .keyExpand key => Sys2Proof.Machine.execKeyExpand key s
  | .encrypt data => Sys2Proof.Machine.execEncrypt data s
  | .decrypt data => Sys2Proof.Machine.execDecrypt data s
  | .reserved op => Sys2Proof.Machine.execReserved op s
  | .noCommand op => Sys2Proof.Machine.execNoCommand op s

end Sys2Proof.Machine
end

