-- ==== Sys2Proof/Machine/Edge.lean ====
section
/-! DEFINITION. One rising edge of `clk` with given inputs (spec/45_commands.md R220), and the input values the
machine samples at its next edge. -/

namespace Sys2Proof.Machine

/-- `step(S, in)` of R220: a reset edge overrides everything; otherwise the command presented (part (1)) and the
progress of the operation in progress before the edge (part (2)). -/
def edge (e : EdgeInputs) (s : State) : Result :=
  if e.rst then .next (resetEdge s)
  else
    match exec (decode e.cmd) s with
    | .next acc => progress s acc
    | .fault r => .fault r
    | .refused r => .refused r

/-- The edges of a list of port values, in order. -/
def runEdges : List EdgeInputs → State → Result
  | [], s => .next s
  | e :: es, s =>
    match edge e s with
    | .next t => runEdges es t
    | .fault r => .fault r
    | .refused r => .refused r

/-- An edge that presents no command and no reset, with the other ports as `u` holds them (R95). -/
def idleEdge (u : CommandPorts) : EdgeInputs := ⟨false, { u with cmdValid := false }⟩

/-- An edge that presents the instruction `i`, with the ports it does not read as `u` holds them (R91). -/
def presentEdge (u : CommandPorts) (i : Instr) : EdgeInputs := ⟨false, encode u i⟩

/-- Ports at zero: what the model drives where nothing is listed (log 1). -/
def zeroPorts : CommandPorts := ⟨false, 0, 0, 0⟩

/-- The inputs sampled at the next edge: the first of the listed values; after the last of them, no command and no
reset (DESIGN CHOICE, log 1). -/
def State.nextInputs (s : State) : EdgeInputs :=
  match s.inputs with
  | [] => idleEdge zeroPorts
  | e :: _ => e

/-- The state with the next edge's inputs taken off the list. -/
def State.dropInput (s : State) : State := { s with inputs := s.inputs.tail }

/-- The state whose next edge samples the inputs `e` (log 9). -/
def State.withNextInputs (s : State) (e : EdgeInputs) : State := { s with inputs := e :: s.inputs.tail }

end Sys2Proof.Machine
end

