-- ==== Sys2Proof/Machine/Step.lean ====
section
/-! DEFINITION. The machine's step: one rising edge of `clk` with the next listed inputs. -/

namespace Sys2Proof.Machine

/-- One step: the edge of R220 on the next inputs. -/
def step (s : State) : Host.Outcome State Fault Refusal := edge s.nextInputs s.dropInput

/-- The state whose next step presents the command word `w`, with `rst = 0` and both operand ports 0 (log 9).
A word with a bit set above bit 3 is no command word, and the decoder refuses it; this function, which has no
refusal to give, presents its low 4 bits (DESIGN CHOICE, log 10). -/
def State.withFetchWord (s : State) (nbits w : Nat) : State :=
  s.withNextInputs ⟨false, .ofWord (BitVec.ofNat 4 (w % 2 ^ nbits)) 0 0⟩

end Sys2Proof.Machine
end

