-- ==== Sys2Proof/Machine/Framing.lean ====
section
/-! DEFINITION. The host that drives the engine: key normalisation, padding, block splitting, the protocol for one
command, and the message functions (spec/46_host_framing.md R250 to R260, spec/60_exceptions.md R271). The host
touches the engine only through `edge`: it drives the ports and reads the registers that are outputs. -/

namespace Sys2Proof.Machine

/-- A message: its bits in order, the first bit first (R251). -/
abbrev Message := List Bool

/-- The host's error conditions (R271). -/
inductive HostError where
  /-- `InvalidInputLength(L)`: ciphertext length not a multiple of 128 bits. Raised by `decryptMessage` (R256). -/
  | invalidInputLength (len : Nat)
  /-- `CorruptPadding(n)`: the declared pad length exceeds the message, or there is no last byte. Raised by
  `unpad` (R253). -/
  | corruptPadding (n : Nat)
  /-- `NonByteAlignedInput(L)`: plaintext length not a multiple of 8 bits. Raised by `pad` (R252). -/
  | nonByteAlignedInput (len : Nat)
  /-- `EngineRejected(cause)`: the engine rejected a command. Raised by `runCommand` (R257). -/
  | engineRejected (cause : ErrCode)
  /-- The model's own: the engine stopped with a fault, or stayed busy longer than any operation takes; no run
  from reset reaches it (logs 5 and 12). Raised by `waitIdle` and `runCommand`; safe. -/
  | engineStopped
deriving DecidableEq, Repr

/-- The block whose bytes are those of a list, byte 0 first (R63, R250); used on lists of 16 bytes. -/
def blockOfBytes (bytes : List Byte) : Block := blockOf fun i => bytes[i.val]?.getD 0

/-- `normalize_key(kb)`: truncate to the first 16 bytes, or zero-pad on the right (R250). -/
def normalizeKey (kb : List Byte) : Block :=
  if 16 ≤ kb.length then blockOfBytes (kb.take 16)
  else blockOfBytes (kb ++ List.replicate (16 - kb.length) 0)

/-- The port value of a 128-bit chunk: `v[127-t] = m[t]`, the first bit most significant (R251). -/
def blockOfBits (m : Message) : Block :=
  m.foldl (fun v b => (v <<< 1) ||| (BitVec.ofBool b).setWidth 128) 0

/-- The bits of a port value, most significant first (R251). -/
def bitsOfBlock (v : Block) : Message := (List.range 128).map fun t => v.getLsbD (127 - t)

/-- `bits8(n)`: the 8-bit unsigned binary form of `n`, most significant bit first (R251). -/
def bits8 (n : Nat) : Message := (List.range 8).map fun t => n.testBit (7 - t)

/-- `unsigned(b0..)`: the number a bit string writes, most significant bit first (R251). -/
def unsigned (m : Message) : Nat := m.foldl (fun n b => 2 * n + b.toNat) 0

/-- The bits of a byte string, most significant bit first (R251). -/
def bitsOfBytes (bytes : List Byte) : Message := bytes.flatMap fun b => bits8 b.toNat

/-- `pad(m, 128)` (R252): `p` bits are appended, all zero but the last 8, which hold `p/8` (R260). -/
def pad (m : Message) : Except HostError Message :=
  if m.length % 8 ≠ 0 then .error (.nonByteAlignedInput m.length)
  else
    let p := 128 - m.length % 128
    .ok (m ++ List.replicate (p - 8) false ++ bits8 (p / 8))

/-- `unpad(m)` (R253): the last 8 bits give the number of bytes to remove. The removed bits are not checked. -/
def unpad (m : Message) : Except HostError Message :=
  if m.length < 8 then .error (.corruptPadding m.length)
  else
    let n := unsigned (m.drop (m.length - 8))
    if m.length < 8 * n then .error (.corruptPadding n) else .ok (m.take (m.length - 8 * n))

/-- `split_blocks(m, 128)`: consecutive chunks of 128 bits, in order (R254). -/
def splitBlocks (m : Message) : List Message :=
  (List.range (m.length / 128)).map fun b => (m.drop (128 * b)).take 128

/-- Wait until `busy = 0` (R257): idle edges, at most `n` of them (log 12). `u` is what the host leaves on the
ports an idle edge does not read. -/
def waitIdle (u : CommandPorts) : Nat → State → Except HostError State
  | 0, s => if s.busy then .error .engineStopped else .ok s
  | n + 1, s =>
    if s.busy then
      match edge (idleEdge u) s with
      | .next t => waitIdle u n t
      | .fault _ => .error .engineStopped
      | .refused _ => .error .engineStopped
    else .ok s

/-- How many idle edges that wait takes: "the smallest n >= 0 after which busy = 0" (R99), at most `n` (log 12). -/
def waitCount (u : CommandPorts) : Nat → State → Except HostError Nat
  | 0, s => if s.busy then .error .engineStopped else .ok 0
  | n + 1, s =>
    if s.busy then
      match edge (idleEdge u) s with
      | .next t => (waitCount u n t).map (· + 1)
      | .fault _ => .error .engineStopped
      | .refused _ => .error .engineStopped
    else .ok 0

/-- `run(cmd, operand)`, the host's protocol for one engine command (R257): wait, present for exactly one edge, read
`err_code`, wait for completion. The result is the engine's state, of which the host reads the outputs. -/
def runCommand (u : CommandPorts) (i : Instr) (s : State) : Except HostError State :=
  match waitIdle u Config.hostWaitEdges s with
  | .error e => .error e
  | .ok ready =>
    match edge (presentEdge u i) ready with
    | .next t =>
      if t.errCode ≠ .errNone then .error (.engineRejected t.errCode)
      else waitIdle u Config.hostWaitEdges t
    | .fault _ => .error .engineStopped
    | .refused _ => .error .engineStopped

/-- One block command for each block, in order, and the concatenation of the results (R255, R256). `cmd` is
ENCRYPT or DECRYPT of a block. -/
def runBlocks (u : CommandPorts) (cmd : Block → Instr) : List Message → State → Except HostError (Message × State)
  | [], s => .ok ([], s)
  | b :: bs, s =>
    match runCommand u (cmd (blockOfBits b)) s with
    | .error e => .error e
    | .ok t =>
      match runBlocks u cmd bs t with
      | .error e => .error e
      | .ok (rest, last) => .ok (bitsOfBlock t.dataOut ++ rest, last)

/-- `encrypt(P, kb)` (R255). `pad` is checked before any engine command (R274). -/
def encryptMessage (u : CommandPorts) (plain : Message) (kb : List Byte) (s : State) :
    Except HostError (Message × State) :=
  match pad plain with
  | .error e => .error e
  | .ok padded =>
    match runCommand u (.keyExpand (normalizeKey kb)) s with
    | .error e => .error e
    | .ok t => runBlocks u .encrypt (splitBlocks padded) t

/-- `decrypt(C, kb)` (R256). The length is checked before any engine command, the padding after every block is
decrypted (R274). -/
def decryptMessage (u : CommandPorts) (coded : Message) (kb : List Byte) (s : State) :
    Except HostError (Message × State) :=
  if coded.length % 128 ≠ 0 then .error (.invalidInputLength coded.length)
  else
    match runCommand u (.keyExpand (normalizeKey kb)) s with
    | .error e => .error e
    | .ok t =>
      match runBlocks u .decrypt (splitBlocks coded) t with
      | .error e => .error e
      | .ok (padded, last) =>
        match unpad padded with
        | .error e => .error e
        | .ok plain => .ok (plain, last)

end Sys2Proof.Machine
end

