-- ==== Sys2Proof/Machine/Program.lean ====
section
/-! DEFINITION. Host programs: the statements of spec/30_encoding.md R98 and R99, the edges they stand for, their
encoding (R100), and how a program runs on the engine. -/

namespace Sys2Proof.Machine

/-- What a CHECK asserts: the value an output port holds after the last edge so far (R99). -/
inductive Check where
  | dataOut (v : Block)
  | busy (v : Bool)
  | done (v : Bool)
  | keyValid (v : Bool)
  | errCode (v : BitVec 2)
deriving DecidableEq, Repr

/-- The statements of R98 and the pseudo-statements of R99. -/
inductive Stmt where
  | reset
  | nop
  | keyExpand (key : Block)
  | encrypt (data : Block)
  | decrypt (data : Block)
  | cmd (op : BitVec 3)
  | idle (n : Nat)
  | wait
  | check (c : Check)
deriving DecidableEq, Repr

/-- Whether the output ports hold what a CHECK asserts (R99). -/
def Check.holds (o : Outputs) : Check → Bool
  | .dataOut v => o.dataOut == v
  | .busy v => o.busy == v
  | .done v => o.done == v
  | .keyValid v => o.keyValid == v
  | .errCode v => o.errCode == v

/-- The edges a statement is (R98). CHECK is no edge (R99), and WAIT has edges only once it is expanded (see
`Stmt.expand`). "Inputs not listed may hold any value": they are left at what `u` holds on them (log 15). -/
def Stmt.edges (u : CommandPorts) : Stmt → List EdgeInputs
  | .reset => [⟨true, { u with cmdValid := false }⟩]
  | .nop => [presentEdge u .nop]
  | .keyExpand key => [presentEdge u (.keyExpand key)]
  | .encrypt data => [presentEdge u (.encrypt data)]
  | .decrypt data => [presentEdge u (.decrypt data)]
  | .cmd op => [⟨false, { u with cmdValid := true, cmdOp := op }⟩]
  | .idle n => List.replicate n (idleEdge u)
  | .wait => []
  | .check _ => []

/-- Why a host program ends early. -/
inductive ProgramStop where
  /-- The engine stopped, or a WAIT did not end (logs 5 and 12). Raised by `runStmt`; safe. -/
  | engineStopped
  /-- A CHECK's assertion is false. Raised by `runStmt`; it is the program's own verdict. -/
  | checkFailed (c : Check)
deriving DecidableEq, Repr

/-- A statement with its WAIT expanded, on an engine in the state `s` (R99): WAIT is IDLE n for the smallest n
after which `busy = 0`. Every other statement stands for itself. -/
def Stmt.expand (u : CommandPorts) (s : State) : Stmt → Except ProgramStop Stmt
  | .wait =>
    match waitCount u Config.hostWaitEdges s with
    | .ok n => .ok (.idle n)
    | .error _ => .error .engineStopped
  | .reset => .ok .reset
  | .nop => .ok .nop
  | .keyExpand key => .ok (.keyExpand key)
  | .encrypt data => .ok (.encrypt data)
  | .decrypt data => .ok (.decrypt data)
  | .cmd op => .ok (.cmd op)
  | .idle n => .ok (.idle n)
  | .check c => .ok (.check c)

/-- The edges of one statement on an engine in the state `s`, its WAIT expanded, and the state after them (R98,
R99). -/
def runStmtEdges (u : CommandPorts) (stmt : Stmt) (s : State) : Except ProgramStop (List EdgeInputs × State) :=
  match stmt.expand u s with
  | .error e => .error e
  | .ok plain =>
    match runEdges (plain.edges u) s with
    | .next t => .ok (plain.edges u, t)
    | .fault _ => .error .engineStopped
    | .refused _ => .error .engineStopped

/-- Whether the assertion of a statement fails: only a CHECK asserts anything (R99). -/
def Stmt.failedCheck (s : State) : Stmt → Option Check
  | .check c => if c.holds s.outputs then none else some c
  | .reset | .nop | .keyExpand _ | .encrypt _ | .decrypt _ | .cmd _ | .idle _ | .wait => none

/-- One statement on the engine (R98, R99): its edges, or for a CHECK its assertion. -/
def runStmt (u : CommandPorts) (stmt : Stmt) (s : State) : Except ProgramStop State :=
  match stmt.failedCheck s with
  | some c => .error (.checkFailed c)
  | none => (runStmtEdges u stmt s).map (·.2)

/-- A host program: its statements in order (R98). -/
def runProgram (u : CommandPorts) : List Stmt → State → Except ProgramStop State
  | [], s => .ok s
  | stmt :: rest, s =>
    match runStmt u stmt s with
    | .ok t => runProgram u rest t
    | .error e => .error e

/-- The list of a program's edges, on an engine in the state `s` before its first edge (R98, R99). How many edges
a WAIT is depends on that state. What a CHECK asserts plays no part. -/
def programEdges (u : CommandPorts) : List Stmt → State → Except ProgramStop (List EdgeInputs)
  | [], _ => .ok []
  | stmt :: rest, s =>
    match runStmtEdges u stmt s with
    | .error e => .error e
    | .ok (es, t) => (programEdges u rest t).map (es ++ ·)

/-- The encoding of a program that starts in the state `s`: "the list of its edges" (R100). -/
def encodeProgram (u : CommandPorts) (p : List Stmt) (s : State) : Except ProgramStop (List EncodedEdge) :=
  (programEdges u p s).map (·.map encodeEdge)

/-- The boot and encryption of a list of blocks under one key, one block every 12 edges (R293, R303). -/
def blockProgram (key : Block) (blocks : List Block) : List Stmt :=
  [.reset, .keyExpand key, .idle Config.keyExpandEdges] ++
    blocks.flatMap fun b => [.encrypt b, .idle Config.blockEdges]

end Sys2Proof.Machine
end

