-- ==== Sys2Proof/Machine/ProgramText.lean ====
section
/-! DEFINITION. Reading a line of program text (spec/30_encoding.md R98, R99): comments, the edge prefix, and the
statements. Text is a list of characters, one statement a line (DESIGN CHOICE, log 19). -/

namespace Sys2Proof.Machine

/-- Why a line of text is no statement. -/
inductive ParseError where
  /-- The statement's word or its number of arguments is not one of R98 and R99. Raised by `parseStmt`; safe. -/
  | unknownStatement
  /-- An argument is not of the form R98 or R99 gives it. Raised by `parseStmt` and `parseLine`; safe. -/
  | badArgument
deriving DecidableEq, Repr

/-- The tokens of a line, separated by spaces and by nothing else (DESIGN CHOICE, log 19: R98 does not say what
separates them). `cur` holds the characters of the token being read, last first. -/
def tokensFrom : List Char → List Char → List (List Char)
  | cur, [] => if cur.isEmpty then [] else [cur.reverse]
  | cur, c :: cs =>
    if c = ' ' then (if cur.isEmpty then tokensFrom [] cs else cur.reverse :: tokensFrom [] cs)
    else tokensFrom (c :: cur) cs

/-- The tokens of a line before its comment. A comment "starts with `;`" (R98) and runs to the end of its line
(DESIGN CHOICE, log 19: R98 does not say where it ends). -/
def tokens (line : List Char) : List (List Char) := tokensFrom [] (line.takeWhile (· ≠ ';'))

/-- The value of a digit in base `base` (2, 10 or 16), a letter in either case (DESIGN CHOICE, log 19). -/
def digitValue (base : Nat) (c : Char) : Option Nat :=
  let n := c.toNat
  let v := if 48 ≤ n ∧ n ≤ 57 then n - 48 else if 97 ≤ n ∧ n ≤ 102 then n - 87
    else if 65 ≤ n ∧ n ≤ 70 then n - 55 else base
  if v < base then some v else none

/-- The number a digit string writes, most significant digit first, from `acc` on. -/
def numberFrom (base : Nat) : Nat → List Char → Option Nat
  | acc, [] => some acc
  | acc, c :: cs =>
    match digitValue base c with
    | some v => numberFrom base (base * acc + v) cs
    | none => none

/-- The number a nonempty digit string writes. -/
def number (base : Nat) (cs : List Char) : Option Nat := if cs.isEmpty then none else numberFrom base 0 cs

/-- `<hex32>`: 32 hexadecimal digits in the byte order of R63 (R98). -/
def hex32 (cs : List Char) : Except ParseError Block :=
  if cs.length = 32 then
    match number 16 cs with
    | some n => .ok (BitVec.ofNat 128 n)
    | none => .error .badArgument
  else .error .badArgument

/-- A binary numeral without its `0b`, which R12 puts before one and the programs of spec/95_test_vectors.md leave
out. -/
def dropBinaryMark : List Char → List Char
  | '0' :: 'b' :: digits => digits
  | cs => cs

/-- `<bin3>`: 3 binary digits, bare or after `0b` (DESIGN CHOICE, log 19: R98 does not define the form; R227 writes
`CMD 0b111`, program P3 writes `CMD 111`). -/
def bin3 (cs : List Char) : Except ParseError (BitVec 3) :=
  let digits := dropBinaryMark cs
  if digits.length = 3 then
    match number 2 digits with
    | some n => .ok (BitVec.ofNat 3 n)
    | none => .error .badArgument
  else .error .badArgument

/-- A one-bit value of a CHECK: 0 or 1 (log 19). -/
def bit1 (cs : List Char) : Except ParseError Bool :=
  if cs = ['0'] then .ok false else if cs = ['1'] then .ok true else .error .badArgument

/-- The `err_code` value of a CHECK: a decimal number 0 to 3 (log 19). -/
def code2 (cs : List Char) : Except ParseError (BitVec 2) :=
  match number 10 cs with
  | some n => if n < 4 then .ok (BitVec.ofNat 2 n) else .error .badArgument
  | none => .error .badArgument

/-- `CHECK <port> = <value>` (R99), on the port's name and the value. The forms of the values are the model's (DESIGN
CHOICE, log 19). -/
def parseCheck (port value : List Char) : Except ParseError Stmt :=
  if port = ['d', 'a', 't', 'a', '_', 'o', 'u', 't'] then (hex32 value).map fun v => .check (.dataOut v)
  else if port = ['b', 'u', 's', 'y'] then (bit1 value).map fun v => .check (.busy v)
  else if port = ['d', 'o', 'n', 'e'] then (bit1 value).map fun v => .check (.done v)
  else if port = ['k', 'e', 'y', '_', 'v', 'a', 'l', 'i', 'd'] then (bit1 value).map fun v => .check (.keyValid v)
  else if port = ['e', 'r', 'r', '_', 'c', 'o', 'd', 'e'] then (code2 value).map fun v => .check (.errCode v)
  else .error .badArgument

/-- One statement, from its tokens (R98, R99). The number of IDLE is decimal, and the `=` of CHECK is a token of its own
(DESIGN CHOICE, log 19). -/
def parseStmt : List (List Char) → Except ParseError Stmt
  | [['R', 'E', 'S', 'E', 'T']] => .ok .reset
  | [['N', 'O', 'P']] => .ok .nop
  | [['W', 'A', 'I', 'T']] => .ok .wait
  | [['K', 'E', 'Y', '_', 'E', 'X', 'P', 'A', 'N', 'D'], a] => (hex32 a).map .keyExpand
  | [['E', 'N', 'C', 'R', 'Y', 'P', 'T'], a] => (hex32 a).map .encrypt
  | [['D', 'E', 'C', 'R', 'Y', 'P', 'T'], a] => (hex32 a).map .decrypt
  | [['C', 'M', 'D'], a] => (bin3 a).map .cmd
  | [['I', 'D', 'L', 'E'], a] =>
    match number 10 a with
    | some n => .ok (.idle n)
    | none => .error .badArgument
  | [['C', 'H', 'E', 'C', 'K'], port, ['='], value] => parseCheck port value
  | _ => .error .unknownStatement

/-- A line with a statement: the edge number of its prefix, where it has one, and the statement (R98). -/
structure ProgramLine where
  edgeNumber : Option Nat
  stmt : Stmt
deriving DecidableEq, Repr

/-- One line of program text: nothing (a blank line or a comment), or one statement with its optional `@e` prefix
(R98). That a line holds one statement, and that `e` is decimal and stands right after the `@` in a token of its
own, is the model's (DESIGN CHOICE, log 19). -/
def parseLine (line : List Char) : Except ParseError (Option ProgramLine) :=
  match tokens line with
  | [] => .ok none
  | ('@' :: digits) :: rest =>
    match number 10 digits with
    | some e => (parseStmt rest).map fun stmt => some ⟨some e, stmt⟩
    | none => .error .badArgument
  | ts => (parseStmt ts).map fun stmt => some ⟨none, stmt⟩

end Sys2Proof.Machine
end

