-- ==== Sys2Proof/Safety.lean ====
section
/-! DEFINITION. The terms claims are written in: which edges accept and complete, the reachable-state invariants of
spec/10_state.md R49. -/

namespace Sys2Proof.Machine

/-- The accepting edges (R229): no reset, and KEY_EXPAND, ENCRYPT or DECRYPT presented with no cause to reject
it (R222). -/
def acceptsCommand (e : EdgeInputs) (s : State) : Bool :=
  !e.rst && e.cmd.cmdValid && decide (e.cmd.cmdOp ≠ 0b000#3) && decide (rejectCause s e.cmd.cmdOp = .errNone)

/-- The states whose next edge, without a reset, completes the operation in progress (R230 to R232). -/
def completesNext (s : State) : Bool :=
  match s.phase with
  | .idle => false
  | .kexp => decide (s.kidx.val = 43)
  | .enc => decide (s.rnd.val = 10)
  | .dec => decide (s.rnd.val = 0)

/-- No edge of the list is a reset. -/
def NoReset (es : List EdgeInputs) : Prop := ∀ e ∈ es, e.rst = false

/-- The key of the most recently accepted KEY_EXPAND after an edge, where it was `key` before it. -/
def latestKey (key : Block) (e : EdgeInputs) (s : State) : Block :=
  if acceptsCommand e s then
    match decode e.cmd with
    | .keyExpand new => new
    | .nop | .encrypt _ | .decrypt _ | .reserved _ | .noCommand _ => key
  else key

/-- The invariants of R49, where `key` is the key of the most recently accepted KEY_EXPAND. -/
structure State.Inv (key : Block) (s : State) : Prop where
  /-- `key_valid = 1` implies `phase != KEXP` and RKS is the expansion of the key. -/
  schedule : s.keyValid = true → s.phase ≠ .kexp ∧ s.rks = expandKey key
  /-- `phase = KEXP` implies `key_valid = 0`, 4 ≤ kidx ≤ 43, and the words below `kidx` are expanded. -/
  expanding : s.phase = .kexp →
    s.keyValid = false ∧ 4 ≤ s.kidx.val ∧ s.kidx.val ≤ 43 ∧
      ∀ j : Fin 44, j.val < s.kidx.val → s.rks[j] = (expandKey key)[j]
  /-- `phase = ENC` implies `key_valid = 1`. -/
  encrypting : s.phase = .enc → s.keyValid = true
  /-- `phase = DEC` implies `key_valid = 1`. -/
  decrypting : s.phase = .dec → s.keyValid = true
  /-- `phase != IDLE` implies `done = 0`. -/
  busyNotDone : s.phase ≠ .idle → s.done = false

end Sys2Proof.Machine
end

