-- ==== Sys2Proof/Certificates/Slice0/Obligations.lean ====
section
/-! DEFINITION. The statements about the model, each from the numbered rules of spec/ that its docstring names. -/

open Sys2Proof Sys2Proof.Machine

/-! ## Encoding -/

/-- R91, R93: decoding an encoded well-formed instruction gives it back, with every operand value, whatever the
ports it does not read hold. -/
def Obligations.DecodeOfEncodeIsIdentity : Prop :=
  ∀ (u : CommandPorts) (i : Instr), i.wellFormed = true → decode (encode u i) = i

/-- R93, R97: every value of the ports decodes to a well-formed instruction whose encoding is those ports again,
and the ports are the command word of R90 with the two operands. -/
def Obligations.EncodeOfDecodeIsIdentity : Prop :=
  ∀ p : CommandPorts, (decode p).wellFormed = true ∧ encode p (decode p) = p ∧
    CommandPorts.ofWord p.word p.keyIn p.dataIn = p

/-- R93: the opcode map, row by row, on the command word; the last two clauses read words of the opcode table in
the table's own bit numbering, 8 bits wide, which is the model's choice (log 10). -/
def Obligations.DecodeFollowsOpcodeMap : Prop :=
  ∀ k d : Block,
    decode (.ofWord 0b1000#4 k d) = .nop ∧
    decode (.ofWord 0b1001#4 k d) = .keyExpand k ∧
    decode (.ofWord 0b1010#4 k d) = .encrypt d ∧
    decode (.ofWord 0b1011#4 k d) = .decrypt d ∧
    decode (.ofWord 0b1100#4 k d) = .reserved 0b100#3 ∧
    decode (.ofWord 0b1101#4 k d) = .reserved 0b101#3 ∧
    decode (.ofWord 0b1110#4 k d) = .reserved 0b110#3 ∧
    decode (.ofWord 0b1111#4 k d) = .reserved 0b111#3 ∧
    (∀ op : BitVec 3, decode (.ofWord (0b0#1 ++ op) k d) = .noCommand op) ∧
    decodeTableWord 8 0b1001 = some (.keyExpand 0) ∧ decodeTableWord 8 0b1100 = some (.reserved 0b100#3)

/-- R91: which operand port each command reads, and that an operand port a command ignores may hold any value, in
every state. -/
def Obligations.IgnoredOperandPortsHaveNoEffect : Prop :=
  ∀ (s : State) (k k' d d' : Block),
    decode ⟨true, 0b001#3, k, d⟩ = .keyExpand k ∧ decode ⟨true, 0b010#3, k, d⟩ = .encrypt d ∧
    decode ⟨true, 0b011#3, k, d⟩ = .decrypt d ∧
    edge ⟨false, ⟨true, 0b001#3, k, d⟩⟩ s = edge ⟨false, ⟨true, 0b001#3, k, d'⟩⟩ s ∧
    edge ⟨false, ⟨true, 0b010#3, k, d⟩⟩ s = edge ⟨false, ⟨true, 0b010#3, k', d⟩⟩ s ∧
    edge ⟨false, ⟨true, 0b011#3, k, d⟩⟩ s = edge ⟨false, ⟨true, 0b011#3, k', d⟩⟩ s ∧
    edge ⟨false, ⟨true, 0b000#3, k, d⟩⟩ s = edge ⟨false, ⟨true, 0b000#3, k', d'⟩⟩ s ∧
    ∀ op : BitVec 3, 4 ≤ op.toNat →
      edge ⟨false, ⟨true, op, k, d⟩⟩ s = edge ⟨false, ⟨true, op, k', d'⟩⟩ s

/-- R100: the encoding of an edge keeps its reset bit and its command with its operand. -/
def Obligations.EncodedEdgeKeepsItsCommand : Prop :=
  ∀ (u : CommandPorts) (e : EdgeInputs), ∃ e' : EdgeInputs,
    decodeEdge u (encodeEdge e) = .ok e' ∧ e'.rst = e.rst ∧ e'.cmd.word = e.cmd.word ∧
      decode e'.cmd = decode e.cmd ∧ ∀ s, e.rst = false → edge e' s = edge e s

/-! ## The step and the reset -/

/-- R220: when the next inputs carry no reset and decode to the instruction `i`, the step takes the inputs off the
list, runs `i`, and lets the operation that was in progress advance. The last clause says the same of a
well-formed instruction that the host presents next. -/
def Obligations.StepRunsTheDecodedInstruction : Prop :=
  ∀ (s : State) (e : EdgeInputs) (rest : List EdgeInputs) (i : Instr),
    s.inputs = e :: rest → e.rst = false → decode e.cmd = i →
      (∀ t, exec i { s with inputs := rest } = .next t → step s = progress { s with inputs := rest } t) ∧
      (∀ r, exec i { s with inputs := rest } = .fault r → step s = .fault r) ∧
      (∀ r, exec i { s with inputs := rest } = .refused r → step s = .refused r) ∧
      ∀ (u : CommandPorts) (j : Instr) (t : State), j.wellFormed = true →
        exec j { s with inputs := rest } = .next t →
          step (s.withNextInputs (presentEdge u j)) = progress { s with inputs := rest } t

/-- The model's choice (log 1): when no port values are listed, the edge presents no command and no reset. -/
def Obligations.NoListedInputsMeansNoCommand : Prop :=
  ∀ s : State, s.inputs = [] → step s = progress s s

/-- R46: the register values after an edge with `rst = 1`, from every state and with every other input, and in
the state a run starts from. `st` and `RKS` are unspecified there and nothing is stated of them. -/
def Obligations.ResetEdgeGivesResetValues : Prop :=
  ∀ (c : CommandPorts) (s : State), ∃ t : State, edge ⟨true, c⟩ s = .next t ∧
    t.phase = .idle ∧ t.rnd.val = 0 ∧ t.kidx.val = 0 ∧ t.keyValid = false ∧ t.done = false ∧
    t.errCode = .errNone ∧ t.dataOut = 0 ∧
    State.reset.phase = .idle ∧ State.reset.rnd.val = 0 ∧ State.reset.kidx.val = 0 ∧
    State.reset.keyValid = false ∧ State.reset.done = false ∧ State.reset.errCode = .errNone ∧
    State.reset.dataOut = 0

/-- R290, R274: a reset edge ignores every other input, a command presented with it included, and leaves the listed
inputs of later edges; after it the engine is not busy and all outputs are 0; one more reset edge changes
no output. -/
def Obligations.ResetOverridesEverything : Prop :=
  ∀ (c c' : CommandPorts) (s : State), edge ⟨true, c⟩ s = edge ⟨true, c'⟩ s ∧
    ∃ t t' : State, edge ⟨true, c⟩ s = .next t ∧ edge ⟨true, c'⟩ t = .next t' ∧
      t.inputs = s.inputs ∧ t.outputs = ⟨0, false, false, false, 0⟩ ∧ t'.outputs = t.outputs

/-! ## The commands at their edge -/

/-- R223: NOP writes nothing, in every state, and an operation in progress advances as on an edge with
`cmd_valid = 0`. -/
def Obligations.NopWritesNothing : Prop :=
  ∀ s : State, exec .nop s = .next s ∧ ∀ u v : CommandPorts, edge (presentEdge u .nop) s = edge (idleEdge v) s

/-- R95: with `cmd_valid = 0` no command rule applies whatever the other ports hold; only progress does. An
idle engine then changes no register. -/
def Obligations.NoCommandWhateverThePortsHold : Prop :=
  ∀ (s : State) (op : BitVec 3) (k d : Block),
    exec (.noCommand op) s = .next s ∧ edge ⟨false, ⟨false, op, k, d⟩⟩ s = progress s s ∧
      (s.phase = .idle → edge ⟨false, ⟨false, op, k, d⟩⟩ s = .next s)

/-- R224, R229: an idle engine accepts KEY_EXPAND; every register it writes and every register it leaves. -/
def Obligations.KeyExpandIsAcceptedWhenIdle : Prop :=
  ∀ (s : State) (key : Block), s.phase = .idle →
    ∃ t : State, exec (.keyExpand key) s = .next t ∧
      t.phase = .kexp ∧ t.kidx.val = 4 ∧ t.keyValid = false ∧ t.errCode = .errNone ∧ t.done = false ∧
      (∀ j : Fin 44, j.val < 4 → t.rks[j] = key.extractLsb' (96 - 32 * j.val) 32) ∧
      (∀ j : Fin 44, 4 ≤ j.val → t.rks[j] = s.rks[j]) ∧
      t.rnd = s.rnd ∧ t.st = s.st ∧ t.dataOut = s.dataOut ∧ t.inputs = s.inputs ∧ t.freeCount = s.freeCount

/-- R225, R229: an idle engine with a valid schedule accepts ENCRYPT; nothing else changes. -/
def Obligations.EncryptIsAcceptedWithAKey : Prop :=
  ∀ (s : State) (data : Block), s.phase = .idle → s.keyValid = true →
    exec (.encrypt data) s =
      .next { s with st := data, rnd := 0, phase := .enc, errCode := .errNone, done := false }

/-- R226, R229: an idle engine with a valid schedule accepts DECRYPT; nothing else changes. -/
def Obligations.DecryptIsAcceptedWithAKey : Prop :=
  ∀ (s : State) (data : Block), s.phase = .idle → s.keyValid = true →
    exec (.decrypt data) s =
      .next { s with st := data, rnd := 10, phase := .dec, errCode := .errNone, done := false }

/-- R227: a reserved opcode is always rejected with ERR_ILLEGAL, in every phase and whatever `key_valid`, and
does not disturb the operation in progress. -/
def Obligations.ReservedOpcodesAreIllegal : Prop :=
  ∀ (s : State) (op : BitVec 3),
    exec (.reserved op) s = .next { s with errCode := .errIllegal } ∧
    (4 ≤ op.toNat → ∀ (k d : Block) (u : CommandPorts) (t : State), edge (idleEdge u) s = .next t →
      edge ⟨false, ⟨true, op, k, d⟩⟩ s = .next { t with errCode := .errIllegal })

/-- R222: the acceptance test with its priority; it reads only `phase` and `key_valid`. -/
def Obligations.RejectCauseHasItsPriority : Prop :=
  ∀ (s : State) (op : BitVec 3),
    (4 ≤ op.toNat → rejectCause s op = .errIllegal) ∧
    (op.toNat < 4 → s.phase ≠ .idle → rejectCause s op = .errBusy) ∧
    (op = 0b010#3 ∨ op = 0b011#3 → s.phase = .idle → s.keyValid = false → rejectCause s op = .errNoKey) ∧
    (op = 0b010#3 ∨ op = 0b011#3 → s.phase = .idle → s.keyValid = true → rejectCause s op = .errNone) ∧
    (op.toNat < 2 → s.phase = .idle → rejectCause s op = .errNone) ∧
    ∀ s' : State, s'.phase = s.phase → s'.keyValid = s.keyValid → rejectCause s' op = rejectCause s op

/-- R228: a rejected command writes `err_code` and nothing else; every other register is what the edge would leave
had no command been presented. -/
def Obligations.RejectionWritesOnlyErrCode : Prop :=
  ∀ (s t : State) (op : BitVec 3) (k d : Block) (u : CommandPorts), op ≠ 0b000#3 →
    rejectCause s op ≠ .errNone → edge (idleEdge u) s = .next t →
      edge ⟨false, ⟨true, op, k, d⟩⟩ s = .next { t with errCode := rejectCause s op }

/-- R229, R233: a command is accepted only when the engine is idle before the edge, so the edge is the command's own
writes and nothing else, `err_code <- ERR_NONE` and `done <- 0` among them. -/
def Obligations.AcceptanceEffect : Prop :=
  ∀ (s : State) (e : EdgeInputs), acceptsCommand e s = true →
    s.phase = .idle ∧ ∃ t : State, exec (decode e.cmd) s = .next t ∧ edge e s = .next t ∧
      t.errCode = .errNone ∧ t.done = false ∧ t.phase ≠ .idle ∧ t.dataOut = s.dataOut

/-- R235: every instruction answers a next state, in every state, and none of them writes `data_out` at its own
edge, the listed inputs or the model's counter. -/
def Obligations.EveryInstructionAnswersANextState : Prop :=
  ∀ (i : Instr) (s : State), ∃ t : State, exec i s = .next t ∧ t.dataOut = s.dataOut ∧
    t.inputs = s.inputs ∧ t.freeCount = s.freeCount

/-! ## Progress edges -/

/-- R230: one progress edge of the key expansion, whatever command is presented with it. -/
def Obligations.KeyExpandProgressEdge : Prop :=
  ∀ (s : State) (c : CommandPorts) (h : 4 ≤ s.kidx.val ∧ s.kidx.val < 44), s.phase = .kexp →
    ∃ t : State, edge ⟨false, c⟩ s = .next t ∧
      t.rks[s.kidx.val] = (if s.kidx.val % 4 = 0
        then s.rks[s.kidx.val - 4] ^^^ tWord s.rks[s.kidx.val - 1] s.kidx.val
        else s.rks[s.kidx.val - 4] ^^^ s.rks[s.kidx.val - 1]) ∧
      (∀ j : Fin 44, j.val ≠ s.kidx.val → t.rks[j] = s.rks[j]) ∧
      t.kidx.val = s.kidx.val + 1 ∧
      (s.kidx.val = 43 → t.phase = .idle ∧ t.keyValid = true ∧ t.done = true) ∧
      (s.kidx.val ≠ 43 → t.phase = .kexp ∧ t.keyValid = s.keyValid ∧ t.done = s.done) ∧
      t.rnd = s.rnd ∧ t.st = s.st ∧ t.dataOut = s.dataOut ∧ t.inputs = s.inputs ∧ t.freeCount = s.freeCount

/-- R231: one progress edge of an encryption, whatever command is presented with it. -/
def Obligations.EncryptProgressEdge : Prop :=
  ∀ (s : State) (c : CommandPorts), s.phase = .enc →
    ∃ t : State, edge ⟨false, c⟩ s = .next t ∧
      (s.rnd.val = 0 → t.st = encInitial s.rks s.st ∧ t.rnd.val = 1) ∧
      (1 ≤ s.rnd.val ∧ s.rnd.val ≤ 9 → t.st = encRound s.rks s.st s.rnd ∧ t.rnd.val = s.rnd.val + 1) ∧
      (s.rnd.val < 10 → t.phase = .enc ∧ t.dataOut = s.dataOut ∧ t.done = s.done) ∧
      (s.rnd.val = 10 → t.st = encFinal s.rks s.st ∧ t.dataOut = encFinal s.rks s.st ∧ t.rnd.val = 10 ∧
        t.phase = .idle ∧ t.done = true) ∧
      t.rks = s.rks ∧ t.keyValid = s.keyValid ∧ t.kidx = s.kidx ∧ t.inputs = s.inputs ∧
      t.freeCount = s.freeCount

/-- R232: one progress edge of a decryption, whatever command is presented with it. -/
def Obligations.DecryptProgressEdge : Prop :=
  ∀ (s : State) (c : CommandPorts), s.phase = .dec →
    ∃ t : State, edge ⟨false, c⟩ s = .next t ∧
      (s.rnd.val = 10 → t.st = decFirst s.rks s.st ∧ t.rnd.val = 9) ∧
      (1 ≤ s.rnd.val ∧ s.rnd.val ≤ 9 → t.st = decRound s.rks s.st s.rnd ∧ t.rnd.val + 1 = s.rnd.val) ∧
      (1 ≤ s.rnd.val → t.phase = .dec ∧ t.dataOut = s.dataOut ∧ t.done = s.done) ∧
      (s.rnd.val = 0 → t.st = decLast s.rks s.st ∧ t.dataOut = decLast s.rks s.st ∧ t.rnd.val = 0 ∧
        t.phase = .idle ∧ t.done = true) ∧
      t.rks = s.rks ∧ t.keyValid = s.keyValid ∧ t.kidx = s.kidx ∧ t.inputs = s.inputs ∧
      t.freeCount = s.freeCount

/-- The model's choice (log 5): a key-expansion edge whose index has no word to compute is a fault; by R49 no run
from reset reaches one. -/
def Obligations.KeyIndexOutsideItsRangeFaults : Prop :=
  ∀ (s : State) (c : CommandPorts), s.phase = .kexp → s.kidx.val < 4 ∨ 43 < s.kidx.val →
    edge ⟨false, c⟩ s = .fault .keyIndexOutOfRange

/-! ## Which edges write which register -/

/-- R73: `data_out` changes only at a completion edge of ENCRYPT or DECRYPT, where it takes the result, which is
also left in `st`, and at reset. -/
def Obligations.DataOutChangesOnlyAtCompletion : Prop :=
  ∀ (e : EdgeInputs) (s t : State), edge e s = .next t →
    (t.dataOut ≠ s.dataOut → e.rst = true ∨ (s.phase = .enc ∧ s.rnd.val = 10) ∨ (s.phase = .dec ∧ s.rnd.val = 0)) ∧
    (e.rst = false → (s.phase = .enc ∧ s.rnd.val = 10) ∨ (s.phase = .dec ∧ s.rnd.val = 0) →
      t.dataOut = t.st ∧ t.phase = .idle)

/-- R39, R67: a word of the round-key store changes only at a KEY_EXPAND progress edge, the word `kidx`, and at a
KEY_EXPAND accepting edge, the words 0 to 3. -/
def Obligations.KeyStoreChangesOnlyByKeyExpand : Prop :=
  ∀ (e : EdgeInputs) (s t : State), edge e s = .next t → e.rst = false →
    ∀ j : Fin 44, t.rks[j] ≠ s.rks[j] →
      (s.phase = .kexp ∧ j.val = s.kidx.val) ∨
      (s.phase = .idle ∧ j.val < 4 ∧ e.cmd.cmdValid = true ∧ e.cmd.cmdOp = 0b001#3)

/-- R40: when `key_valid` is set and cleared. -/
def Obligations.KeyValidRule : Prop :=
  ∀ (e : EdgeInputs) (s t : State), edge e s = .next t →
    t.keyValid =
      if e.rst then false
      else if acceptsCommand e s && decide (e.cmd.cmdOp = 0b001#3) then false
      else if decide (s.phase = .kexp) && completesNext s then true
      else s.keyValid

/-- R41: when `done` is set and cleared; a rejected command and NOP leave it unchanged. -/
def Obligations.DoneRule : Prop :=
  ∀ (e : EdgeInputs) (s t : State), edge e s = .next t →
    t.done =
      if e.rst then false
      else if completesNext s then true
      else if acceptsCommand e s then false
      else s.done

/-- R42: `err_code` is written at every edge that presents a command other than NOP, with the outcome of that
command, and reset to 0. -/
def Obligations.ErrCodeRule : Prop :=
  ∀ (e : EdgeInputs) (s t : State), edge e s = .next t →
    t.errCode =
      if e.rst then .errNone
      else if e.cmd.cmdValid && decide (e.cmd.cmdOp ≠ 0b000#3) then rejectCause s e.cmd.cmdOp
      else s.errCode

/-- R43: `busy` is 1 exactly when `phase != IDLE`, and the outputs of R32 are the registers of their names. -/
def Obligations.BusyIsPhaseNotIdle : Prop :=
  ∀ s : State, (s.outputs.busy = true ↔ s.phase ≠ .idle) ∧ s.outputs.dataOut = s.dataOut ∧
    s.outputs.done = s.done ∧ s.outputs.keyValid = s.keyValid ∧
    (s.outputs.errCode = 0 ↔ s.errCode = .errNone) ∧ (s.outputs.errCode = 1 ↔ s.errCode = .errIllegal) ∧
    (s.outputs.errCode = 2 ↔ s.errCode = .errBusy) ∧ (s.outputs.errCode = 3 ↔ s.errCode = .errNoKey)

/-! ## Whole operations -/

/-- R224: KEY_EXPAND, whole. Idle, it is accepted and completes exactly 40 edges later, whatever is presented
meanwhile without a reset: RKS is then the expansion of the key, `key_valid` and `done` are 1, and
`data_out` is unchanged; until then the engine is busy with `key_valid = 0`. Busy, it is rejected with
ERR_BUSY. It is never rejected with ERR_NOKEY. -/
def Obligations.KeyExpandCommand : Prop :=
  ∀ (s : State) (key : Block) (u : CommandPorts),
    (s.phase ≠ .idle → exec (.keyExpand key) s = .next { s with errCode := .errBusy }) ∧
    (s.phase = .idle →
      (∃ a : State, edge (presentEdge u (.keyExpand key)) s = .next a ∧ a.phase = .kexp ∧ a.kidx.val = 4 ∧
        a.keyValid = false ∧ a.errCode = .errNone ∧ a.done = false ∧
        ∀ j : Fin 44, j.val < 4 → a.rks[j] = key.extractLsb' (96 - 32 * j.val) 32) ∧
      ∀ es : List EdgeInputs, NoReset es → es.length ≤ 40 →
        ∃ t : State, runEdges (presentEdge u (.keyExpand key) :: es) s = .next t ∧ t.dataOut = s.dataOut ∧
          (es.length < 40 → t.busy = true ∧ t.keyValid = false ∧ t.done = false) ∧
          (es.length = 40 → t.busy = false ∧ t.keyValid = true ∧ t.done = true ∧ t.rks = expandKey key))

/-- R225: ENCRYPT, whole. Idle with a valid schedule, it is accepted and completes exactly 11 edges later, whatever
is presented meanwhile without a reset: `data_out` is then `Cipher(data_in)` under the round keys in RKS,
and until then it keeps the previous result. Busy or without a key it is rejected. -/
def Obligations.EncryptCommand : Prop :=
  ∀ (s : State) (data : Block) (u : CommandPorts),
    (s.phase ≠ .idle → exec (.encrypt data) s = .next { s with errCode := .errBusy }) ∧
    (s.phase = .idle → s.keyValid = false → exec (.encrypt data) s = .next { s with errCode := .errNoKey }) ∧
    (s.phase = .idle → s.keyValid = true →
      edge (presentEdge u (.encrypt data)) s =
        .next { s with st := data, rnd := 0, phase := .enc, errCode := .errNone, done := false } ∧
      ∀ es : List EdgeInputs, NoReset es → es.length ≤ 11 →
        ∃ t : State, runEdges (presentEdge u (.encrypt data) :: es) s = .next t ∧ t.rks = s.rks ∧
          t.keyValid = true ∧
          (es.length < 11 → t.busy = true ∧ t.done = false ∧ t.dataOut = s.dataOut) ∧
          (es.length = 11 → t.busy = false ∧ t.done = true ∧ t.dataOut = cipher s.rks data))

/-- R226: DECRYPT, whole, as ENCRYPT with `InvCipher` and the same round keys. -/
def Obligations.DecryptCommand : Prop :=
  ∀ (s : State) (data : Block) (u : CommandPorts),
    (s.phase ≠ .idle → exec (.decrypt data) s = .next { s with errCode := .errBusy }) ∧
    (s.phase = .idle → s.keyValid = false → exec (.decrypt data) s = .next { s with errCode := .errNoKey }) ∧
    (s.phase = .idle → s.keyValid = true →
      edge (presentEdge u (.decrypt data)) s =
        .next { s with st := data, rnd := 10, phase := .dec, errCode := .errNone, done := false } ∧
      ∀ es : List EdgeInputs, NoReset es → es.length ≤ 11 →
        ∃ t : State, runEdges (presentEdge u (.decrypt data) :: es) s = .next t ∧ t.rks = s.rks ∧
          t.keyValid = true ∧
          (es.length < 11 → t.busy = true ∧ t.done = false ∧ t.dataOut = s.dataOut) ∧
          (es.length = 11 → t.busy = false ∧ t.done = true ∧ t.dataOut = invCipher s.rks data))

/-- R299: a command presented at the edge that completes an operation is rejected with ERR_BUSY although the engine
is not busy after it; presented again at the next edge, a KEY_EXPAND is accepted. -/
def Obligations.CompletionEdgeHazard : Prop :=
  ∀ (s : State) (op : BitVec 3) (k d x : Block) (u : CommandPorts), completesNext s = true →
    op ≠ 0b000#3 → op.toNat < 4 →
      ∃ t t' : State, edge ⟨false, ⟨true, op, k, d⟩⟩ s = .next t ∧ t.busy = false ∧ t.done = true ∧
        t.errCode = .errBusy ∧ edge (presentEdge u (.keyExpand x)) t = .next t' ∧ t'.errCode = .errNone ∧
        t'.busy = true

/-- R200: the result of a block command depends only on its operand and on RKS. Two idle engines with valid
schedules and the same RKS, whatever else they hold and whatever is presented to each meanwhile, give the
same result for the same block. -/
def Obligations.BlocksAreIndependent : Prop :=
  ∀ (s s' : State) (data : Block) (u u' : CommandPorts) (es es' : List EdgeInputs),
    s.phase = .idle → s'.phase = .idle → s.keyValid = true → s'.keyValid = true → s.rks = s'.rks →
    NoReset es → NoReset es' → es.length = 11 → es'.length = 11 →
      (∃ t t' : State, runEdges (presentEdge u (.encrypt data) :: es) s = .next t ∧
        runEdges (presentEdge u' (.encrypt data) :: es') s' = .next t' ∧ t.dataOut = t'.dataOut) ∧
      (∃ t t' : State, runEdges (presentEdge u (.decrypt data) :: es) s = .next t ∧
        runEdges (presentEdge u' (.decrypt data) :: es') s' = .next t' ∧ t.dataOut = t'.dataOut)

/-! ## Invariants and safe runs -/

/-- R49: every step keeps the reachable-state invariants, for the key of the most recently accepted KEY_EXPAND. -/
def Obligations.StepKeepsTheReachableStateInvariant : Prop :=
  ∀ (key : Block) (s t : State), s.Inv key → step s = .next t → t.Inv (latestKey key s.nextInputs s)

/-- R49: the state after reset meets the invariants, whatever key is taken for the most recent one. -/
def Obligations.ResetMeetsTheInvariant : Prop :=
  ∀ key : Block, State.reset.Inv key

/-- R235, R49, R67: from a state that meets the invariants, no run ever stops, and it ends in such a state. -/
def Obligations.RunsFromTheInvariantNeverStop : Prop :=
  ∀ (n : Nat) (key : Block) (s : State), s.Inv key →
    ∃ (t : State) (key' : Block), Host.Core.run Sys2Proof.core n s = .next t ∧ t.Inv key'

/-! ## Datapath -/

/-- R111: `xtime` by its shift and reduction, and, as the spec derives from that, bit by bit and as a bijection of
bytes. -/
def Obligations.XtimeBits : Prop :=
  (∀ b : Byte,
    (xtime b).getLsbD 0 = b.getLsbD 7 ∧ (xtime b).getLsbD 1 = (b.getLsbD 0 ^^ b.getLsbD 7) ∧
    (xtime b).getLsbD 2 = b.getLsbD 1 ∧ (xtime b).getLsbD 3 = (b.getLsbD 2 ^^ b.getLsbD 7) ∧
    (xtime b).getLsbD 4 = (b.getLsbD 3 ^^ b.getLsbD 7) ∧ (xtime b).getLsbD 5 = b.getLsbD 4 ∧
    (xtime b).getLsbD 6 = b.getLsbD 5 ∧ (xtime b).getLsbD 7 = b.getLsbD 6 ∧
    xtime b = (b <<< 1) ^^^ (if b.getLsbD 7 then 0x1B#8 else 0x00#8)) ∧
  (∀ a b : Byte, xtime a = xtime b → a = b) ∧ (∀ b : Byte, ∃ a : Byte, xtime a = b)

/-- R112: `gmul(a, b)` is the XOR, over the set bits `k` of `b`, of `xtime` applied `k` times to `a`. -/
def Obligations.GmulIsTheSumOverSetBits : Prop :=
  ∀ a b : Byte, gmul a b =
    (List.range 8).foldl (fun acc k => if b.getLsbD k then acc ^^^ xtimeN k a else acc) 0

/-- R115: the product commutes, distributes over XOR, and associates, and every byte but 0x00 has exactly one
inverse. -/
def Obligations.GmulFieldLaws : Prop :=
  (∀ a b : Byte, gmul a b = gmul b a) ∧
  (∀ a b c : Byte, gmul a (b ^^^ c) = gmul a b ^^^ gmul a c) ∧
  (∀ a b c : Byte, gmul (gmul a b) c = gmul a (gmul b c)) ∧
  (∀ a : Byte, a ≠ 0x00#8 → ∃ x : Byte, gmul a x = 0x01#8 ∧ ∀ y : Byte, gmul a y = 0x01#8 → y = x)

/-- R117: the constant multipliers of MixColumns and InvMixColumns in terms of `xtime`. -/
def Obligations.ConstantMultipliers : Prop :=
  ∀ a : Byte,
    gmul 0x01 a = a ∧ gmul 0x02 a = xtime a ∧ gmul 0x03 a = xtime a ^^^ a ∧
    gmul 0x09 a = xtime (xtime (xtime a)) ^^^ a ∧
    gmul 0x0B a = xtime (xtime (xtime a)) ^^^ xtime a ^^^ a ∧
    gmul 0x0D a = xtime (xtime (xtime a)) ^^^ xtime (xtime a) ^^^ a ∧
    gmul 0x0E a = xtime (xtime (xtime a)) ^^^ xtime (xtime a) ^^^ xtime a

/-- R114: the recurrence of the round constants, and the table of their ten values that the spec derives from it.
The recurrence is stated for every index of at least 2, beyond the operands 1..10 of R114 (log 16). -/
def Obligations.RoundConstants : Prop :=
  rc 1 = 0x01 ∧ (∀ i : Nat, 2 ≤ i → rc i = xtime (rc (i - 1))) ∧
  [rc 1, rc 2, rc 3, rc 4, rc 5, rc 6, rc 7, rc 8, rc 9, rc 10] =
    [0x01, 0x02, 0x04, 0x08, 0x10, 0x20, 0x40, 0x80, 0x1B, 0x36]

/-- R135: the two S-boxes are inverse bijections. -/
def Obligations.SboxesAreInverse : Prop :=
  ∀ b : Byte, substituteByte (substituteByte b SBOX) INV_SBOX = b ∧
    substituteByte (substituteByte b INV_SBOX) SBOX = b

/-- R136: the forward S-box is the affine map of the field inverse, and it has no fixed point and no opposite
fixed point. -/
def Obligations.SboxIsAffineOfInverse : Prop :=
  ∀ b : Byte, substituteByte b SBOX = affine (gfInverse b) ∧ (b ≠ 0x00#8 → gmul b (gfInverse b) = 0x01#8) ∧
    gfInverse 0x00#8 = 0x00#8 ∧ substituteByte b SBOX ≠ b ∧ substituteByte b SBOX ≠ b ^^^ 0xFF#8

/-- R133, R134: the byte substitutions act on each byte by itself; InvSubBytes undoes SubBytes, and (R158) SubBytes
commutes with ShiftRows. -/
def Obligations.SubBytesActsOnEachByte : Prop :=
  ∀ s : Block,
    (∀ i : Fin 16, byte (subBytes s) i = substituteByte (byte s i) SBOX) ∧
    (∀ i : Fin 16, byte (invSubBytes s) i = substituteByte (byte s i) INV_SBOX) ∧
    invSubBytes (subBytes s) = s ∧ shiftRows (subBytes s) = subBytes (shiftRows s)

/-- R150: row `r` rotated left by `r` positions. R151: rotated right. As the spec derives, each undoes the other,
and ShiftRows four times is the identity. -/
def Obligations.ShiftRowsRotatesTheRows : Prop :=
  ∀ s : Block,
    (∀ r c c' : Fin 4, c'.val = (c.val + r.val) % 4 → elem (shiftRows s) r c = elem s r c') ∧
    (∀ r c c' : Fin 4, (c'.val + r.val) % 4 = c.val → elem (invShiftRows s) r c = elem s r c') ∧
    invShiftRows (shiftRows s) = s ∧ shiftRows (invShiftRows s) = s ∧
    shiftRows (shiftRows (shiftRows (shiftRows s))) = s

/-- R154: each column times the forward matrix, written out with `xtime`; MixColumns is linear, and a column of four
equal bytes is unchanged. R155: each column times the inverse matrix, entry by entry. -/
def Obligations.MixColumnsWrittenOut : Prop :=
  (∀ (s : Block) (c : Fin 4),
    elem (mixColumns s) 0 c = xtime (elem s 0 c) ^^^ (xtime (elem s 1 c) ^^^ elem s 1 c) ^^^ elem s 2 c ^^^ elem s 3 c ∧
    elem (mixColumns s) 1 c = elem s 0 c ^^^ xtime (elem s 1 c) ^^^ (xtime (elem s 2 c) ^^^ elem s 2 c) ^^^ elem s 3 c ∧
    elem (mixColumns s) 2 c = elem s 0 c ^^^ elem s 1 c ^^^ xtime (elem s 2 c) ^^^ (xtime (elem s 3 c) ^^^ elem s 3 c) ∧
    elem (mixColumns s) 3 c = (xtime (elem s 0 c) ^^^ elem s 0 c) ^^^ elem s 1 c ^^^ elem s 2 c ^^^ xtime (elem s 3 c) ∧
    elem (invMixColumns s) 0 c =
      gmul 0x0E (elem s 0 c) ^^^ gmul 0x0B (elem s 1 c) ^^^ gmul 0x0D (elem s 2 c) ^^^ gmul 0x09 (elem s 3 c) ∧
    elem (invMixColumns s) 1 c =
      gmul 0x09 (elem s 0 c) ^^^ gmul 0x0E (elem s 1 c) ^^^ gmul 0x0B (elem s 2 c) ^^^ gmul 0x0D (elem s 3 c) ∧
    elem (invMixColumns s) 2 c =
      gmul 0x0D (elem s 0 c) ^^^ gmul 0x09 (elem s 1 c) ^^^ gmul 0x0E (elem s 2 c) ^^^ gmul 0x0B (elem s 3 c) ∧
    elem (invMixColumns s) 3 c =
      gmul 0x0B (elem s 0 c) ^^^ gmul 0x0D (elem s 1 c) ^^^ gmul 0x09 (elem s 2 c) ^^^ gmul 0x0E (elem s 3 c) ∧
    (elem s 1 c = elem s 0 c → elem s 2 c = elem s 0 c → elem s 3 c = elem s 0 c →
      ∀ r : Fin 4, elem (mixColumns s) r c = elem s r c ∧ elem (invMixColumns s) r c = elem s r c)) ∧
  ∀ s t : Block, mixColumns (s ^^^ t) = mixColumns s ^^^ mixColumns t

/-- R156: the two matrices are inverse under GF(2^8) matrix multiplication, and the two transformations undo each
other on every State. -/
def Obligations.MixMatricesAreInverse : Prop :=
  (∀ r c : Fin 4,
    gmul MIX[r][0] INV_MIX[0][c] ^^^ gmul MIX[r][1] INV_MIX[1][c] ^^^ gmul MIX[r][2] INV_MIX[2][c] ^^^
      gmul MIX[r][3] INV_MIX[3][c] = (if r = c then 0x01#8 else 0x00#8) ∧
    gmul INV_MIX[r][0] MIX[0][c] ^^^ gmul INV_MIX[r][1] MIX[1][c] ^^^ gmul INV_MIX[r][2] MIX[2][c] ^^^
      gmul INV_MIX[r][3] MIX[3][c] = (if r = c then 0x01#8 else 0x00#8)) ∧
  ∀ s : Block, invMixColumns (mixColumns s) = s ∧ mixColumns (invMixColumns s) = s

/-- R157, R68: AddRoundKey XORs byte `4c + r` of the State with byte `r` of `RKS[4k + c]`, and is its own inverse. -/
def Obligations.AddRoundKeyIsBytewiseXor : Prop :=
  ∀ (rks : RoundKeyStore) (s : Block) (k : Fin 11),
    (∀ (r c : Fin 4) (j : Fin 44), j.val = 4 * k.val + c.val →
      elem (addRoundKey rks s k) r c = elem s r c ^^^ wbyte rks[j] r) ∧
    addRoundKey rks (addRoundKey rks s k) k = s

/-- R171, R172, R173: the word functions of the key schedule, byte by byte; `T` at the indices R173 gives it. -/
def Obligations.KeyScheduleWordFunctions : Prop :=
  ∀ (w : Word) (i : Nat),
    (∀ j j' : Fin 4, j'.val = (j.val + 1) % 4 → wbyte (rotWord w) j = wbyte w j') ∧
    (∀ j : Fin 4, wbyte (subWord w) j = substituteByte (wbyte w j) SBOX) ∧
    (i % 4 = 0 → 4 ≤ i → i ≤ 40 →
      wbyte (tWord w i) 0 = substituteByte (wbyte w 1) SBOX ^^^ rc (i / 4) ∧
      wbyte (tWord w i) 1 = substituteByte (wbyte w 2) SBOX ∧
      wbyte (tWord w i) 2 = substituteByte (wbyte w 3) SBOX ∧
      wbyte (tWord w i) 3 = substituteByte (wbyte w 0) SBOX)

/-- R170, R174, R175: the words of the expanded key satisfy the recurrence; R176: RoundKey(0) is the key. -/
def Obligations.ExpandedKeySatisfiesTheRecurrence : Prop :=
  ∀ key : Block,
    (∀ j : Fin 44, j.val < 4 → (expandKey key)[j] = key.extractLsb' (96 - 32 * j.val) 32) ∧
    (∀ i i1 i4 : Fin 44, i1.val + 1 = i.val → i4.val + 4 = i.val →
      (expandKey key)[i] = (if i.val % 4 = 0
        then (expandKey key)[i4] ^^^ (subWord (rotWord (expandKey key)[i1]) ^^^ (rc (i.val / 4) ++ 0#24))
        else (expandKey key)[i4] ^^^ (expandKey key)[i1])) ∧
    roundKey (expandKey key) 0 = key

/-- R199: decryption undoes encryption and encryption undoes decryption, for every block and every round-key store,
so for every key. -/
def Obligations.CipherRoundTrip : Prop :=
  ∀ (rks : RoundKeyStore) (x : Block), invCipher rks (cipher rks x) = x ∧ cipher rks (invCipher rks x) = x

/-- R194: the known-answer test of the source, and R198's example. -/
def Obligations.KnownAnswerTest : Prop :=
  cipher (expandKey 0x000102030405060708090a0b0c0d0e0f) 0x00112233445566778899aabbccddeeff =
      0x69c4e0d86a7b0430d8cdb78070b4c55a ∧
    invCipher (expandKey 0x000102030405060708090a0b0c0d0e0f) 0x69c4e0d86a7b0430d8cdb78070b4c55a =
      0x00112233445566778899aabbccddeeff

/-! ## The host -/

/-- R250: key normalisation, byte by byte. -/
def Obligations.KeyNormalisation : Prop :=
  ∀ (kb : List Byte) (i : Fin 16), byte (normalizeKey kb) i = if h : i.val < kb.length then kb[i.val] else 0x00#8

/-- R252: padding, bit by bit, and its one error. -/
def Obligations.PaddingRule : Prop :=
  ∀ m : Message,
    (m.length % 8 ≠ 0 → pad m = .error (.nonByteAlignedInput m.length)) ∧
    (m.length % 8 = 0 → ∃ (p : Nat) (tail : Message), p + m.length % 128 = 128 ∧
      pad m = .ok (m ++ List.replicate (p - 8) false ++ tail) ∧ tail.length = 8 ∧ unsigned tail = p / 8 ∧
      8 ≤ p ∧ p ≤ 128 ∧ (m ++ List.replicate (p - 8) false ++ tail).length % 128 = 0)

/-- R253: unpadding and its errors. -/
def Obligations.UnpaddingRule : Prop :=
  ∀ m : Message,
    (m.length < 8 → unpad m = .error (.corruptPadding m.length)) ∧
    ∀ last : Message, last.length = 8 →
      (m.length + 8 < 8 * unsigned last → unpad (m ++ last) = .error (.corruptPadding (unsigned last))) ∧
      (8 * unsigned last ≤ m.length + 8 →
        unpad (m ++ last) = .ok ((m ++ last).take (m.length + 8 - 8 * unsigned last)))

/-- R255: from every state that meets the invariants, message encryption answers the concatenation of `Cipher` of
the blocks of the padded message, under the normalised key; its only error is that of `pad`. -/
def Obligations.MessageEncryptionIsBlockwise : Prop :=
  ∀ (u : CommandPorts) (m : Message) (kb : List Byte) (key : Block) (s : State), s.Inv key →
    (m.length % 8 ≠ 0 → encryptMessage u m kb s = .error (.nonByteAlignedInput m.length)) ∧
    (m.length % 8 = 0 → ∃ (padded : Message) (t : State), pad m = .ok padded ∧
      encryptMessage u m kb s = .ok ((splitBlocks padded).flatMap (fun b =>
        bitsOfBlock (cipher (expandKey (normalizeKey kb)) (blockOfBits b))), t) ∧
      t.Inv (normalizeKey kb) ∧ t.busy = false)

/-- R256: message decryption: an error for a length that is not whole blocks, else `InvCipher` of the blocks, unpadded. -/
def Obligations.MessageDecryptionIsBlockwise : Prop :=
  ∀ (u : CommandPorts) (m : Message) (kb : List Byte) (key : Block) (s : State), s.Inv key →
    (m.length % 128 ≠ 0 → decryptMessage u m kb s = .error (.invalidInputLength m.length)) ∧
    (m.length % 128 = 0 → ∀ padded : Message,
      padded = (splitBlocks m).flatMap (fun b =>
        bitsOfBlock (invCipher (expandKey (normalizeKey kb)) (blockOfBits b))) →
      (∀ e, unpad padded = .error e → decryptMessage u m kb s = .error e) ∧
      (∀ plain, unpad padded = .ok plain → ∃ t : State, decryptMessage u m kb s = .ok (plain, t)))

/-- R258: `unpad(pad(m)) = m`, a padded message is whole blocks, and decrypting an encrypted message gives it back,
for every byte-aligned message and every key, on an engine in any state that meets the invariants. -/
def Obligations.MessageRoundTrip : Prop :=
  ∀ (u v : CommandPorts) (m : Message) (kb : List Byte) (key : Block) (s : State), s.Inv key → m.length % 8 = 0 →
    ∃ (padded c : Message) (t t' : State), pad m = .ok padded ∧ padded.length % 128 = 0 ∧ unpad padded = .ok m ∧
      encryptMessage u m kb s = .ok (c, t) ∧
      c.length = 128 * (m.length / 128 + 1) ∧ decryptMessage v c kb t = .ok (m, t')

/-- R293, R303: from every state, booting and encrypting n blocks takes 1 + 41 + 12n edges and leaves the last
block's ciphertext at `data_out`. -/
def Obligations.BootAndEncryptBlocks : Prop :=
  ∀ (u : CommandPorts) (key b : Block) (bs : List Block) (s : State),
    ((blockProgram key (bs ++ [b])).flatMap (Stmt.edges u)).length = 1 + 41 + 12 * (bs.length + 1) ∧
    ∃ t : State, runProgram u (blockProgram key (bs ++ [b])) s = .ok t ∧
      t.outputs = ⟨cipher (expandKey key) b, false, true, true, 0⟩ ∧ t.rks = expandKey key
end

