-- ==== Sys2Proof/Laws/Operands.lean ====
section
/-! SUPPORT. Layout lemmas: bytes of a built block, elements of a built State, bytes of a built word, and that a
block or a word is determined by its bytes; reads of the round-key store after `loadKey`. -/

namespace Sys2Proof.Machine

theorem extractLsb'_append_right {m n : Nat} (x : BitVec m) (y : BitVec n) (s l : Nat) (h : s + l ≤ n) :
    (x ++ y).extractLsb' s l = y.extractLsb' s l := by
  ext i hi
  simp [BitVec.getLsbD_append]
  omega

theorem extractLsb'_append_left {m n : Nat} (x : BitVec m) (y : BitVec n) (s l : Nat) (h : n ≤ s) :
    (x ++ y).extractLsb' s l = x.extractLsb' (s - n) l := by
  ext i hi
  have h2 : s + i - n = s - n + i := by omega
  simp [BitVec.getLsbD_append, h2]
  omega

theorem extractLsb'_whole {n : Nat} (x : BitVec n) : x.extractLsb' 0 n = x := by
  ext i hi
  simp

/-- The last part of a concatenation. -/
theorem extractLsb'_last {m n : Nat} (x : BitVec m) (y : BitVec n) : (x ++ y).extractLsb' 0 n = y :=
  (extractLsb'_append_right x y 0 n (by omega)).trans (extractLsb'_whole y)

/-- Byte `i` of a block built from bytes is the byte it was built from. -/
@[simp] theorem byte_blockOf (b : Fin 16 → Byte) (i : Fin 16) : byte (blockOf b) i = b i := by
  fin_cases i <;>
    repeat first
      | exact extractLsb'_last _ _
      | exact extractLsb'_whole _
      | refine (extractLsb'_append_left _ _ _ _ (by decide)).trans ?_

/-- Byte `j` of a word built from bytes is the byte it was built from. -/
@[simp] theorem wbyte_wordOf (b : Fin 4 → Byte) (j : Fin 4) : wbyte (wordOf b) j = b j := by
  fin_cases j <;>
    repeat first
      | exact extractLsb'_last _ _
      | exact extractLsb'_whole _
      | refine (extractLsb'_append_left _ _ _ _ (by decide)).trans ?_

/-- Element (r, c) of a State built from elements is the element it was built from. -/
@[simp] theorem elem_stateOf (f : Fin 4 → Fin 4 → Byte) (r c : Fin 4) : elem (stateOf f) r c = f r c := by
  have h1 : (4 * c.val + r.val) % 4 = r.val := by omega
  have h2 : (4 * c.val + r.val) / 4 = c.val := by omega
  simp [elem, stateOf, elemIndex, h1, h2]

theorem byte_getLsbD (v : Block) (i : Fin 16) (k : Nat) (hk : k < 8) :
    (byte v i).getLsbD k = v.getLsbD (120 - 8 * i.val + k) := by
  simp [byte, hk]

/-- Two blocks with the same bytes are equal. -/
theorem block_ext {v w : Block} (h : ∀ i, byte v i = byte w i) : v = w := by
  ext j hj
  have hb := congrArg (fun b : Byte => b.getLsbD (j % 8)) (h ⟨15 - j / 8, by omega⟩)
  have hm : j % 8 < 8 := Nat.mod_lt _ (by decide)
  have hs : 120 - 8 * (15 - j / 8) + j % 8 = j := by omega
  simpa only [byte_getLsbD _ _ _ hm, hs, ← BitVec.getLsbD_eq_getElem] using hb

/-- Two States with the same elements are equal. -/
theorem state_ext {v w : Block} (h : ∀ r c, elem v r c = elem w r c) : v = w := by
  refine block_ext fun i => ?_
  have hi := h ⟨i.val % 4, by omega⟩ ⟨i.val / 4, by omega⟩
  have he : elemIndex ⟨i.val % 4, by omega⟩ ⟨i.val / 4, by omega⟩ = i := by
    apply Fin.ext
    simp only [elemIndex]
    omega
  simpa only [elem, he] using hi

/-- Bytes of an XOR are the XORs of the bytes (R113). -/
@[simp] theorem byte_xor (v w : Block) (i : Fin 16) : byte (v ^^^ w) i = byte v i ^^^ byte w i := by
  ext k hk
  simp [byte]

@[simp] theorem elem_xor (v w : Block) (r c : Fin 4) : elem (v ^^^ w) r c = elem v r c ^^^ elem w r c :=
  byte_xor v w _

@[simp] theorem wbyte_xor (v w : Word) (j : Fin 4) : wbyte (v ^^^ w) j = wbyte v j ^^^ wbyte w j := by
  ext k hk
  simp [wbyte]

/-- Byte `r` of column `c` is element (r, c) (R14, R65). -/
theorem wbyte_column (s : Block) (r c : Fin 4) : wbyte (column s c) r = elem s r c := by
  ext k hk
  have h : 24 - 8 * r.val + k < 32 := by omega
  have e : 96 - 32 * c.val + (24 - 8 * r.val + k) = 120 - 8 * (4 * c.val + r.val) + k := by omega
  simp [wbyte, column, elem, byte, elemIndex, h, e]

/-- Column `c` of a round key is word `4k + c` of the store (R68). -/
theorem column_roundKey (rks : RoundKeyStore) (k : Fin 11) (c : Fin 4) (h : 4 * k.val + c.val < 44) :
    column (roundKey rks k) c = rks[4 * k.val + c.val] := by
  fin_cases c <;>
    repeat first
      | exact extractLsb'_last _ _
      | exact extractLsb'_whole _
      | refine (extractLsb'_append_left _ _ _ _ (by decide)).trans ?_

/-- The store after the key's initial words are loaded (R224). -/
theorem loadKey_get (key : Block) (rks : RoundKeyStore) (j : Nat) (h : j < 44) :
    (loadKey key rks)[j] =
      if j = 0 then keyWord key 0 else if j = 1 then keyWord key 1
      else if j = 2 then keyWord key 2 else if j = 3 then keyWord key 3 else rks[j] := by
  simp only [loadKey, Vector.getElem_set]
  grind

end Sys2Proof.Machine
end

