-- ==== Sys2Proof/Laws/Datapath.lean ====
section
/-! SUPPORT. Small lemmas about the datapath: linearity of `xtime` and of the product's loop, the equations of the key
expansion, and that the recurrence reads only earlier words. -/

namespace Sys2Proof.Machine

theorem byte_bit_ext {a b : Byte} (h : ∀ k < 8, a.getLsbD k = b.getLsbD k) : a = b :=
  BitVec.eq_of_getLsbD_eq (by simpa using h)

/-- Multiply-by-x is linear (R111, R113). -/
theorem xtime_xor (a b : Byte) : xtime (a ^^^ b) = xtime a ^^^ xtime b := by
  unfold xtime
  cases ha : a.getLsbD 7 <;> cases hb : b.getLsbD 7 <;>
    simp only [BitVec.getLsbD_xor, ha, hb, BitVec.shiftLeft_xor_distrib] <;>
    refine byte_bit_ext fun k hk => ?_ <;>
    simp [hk]
  all_goals grind

@[simp] theorem xtime_zero : xtime 0#8 = 0#8 := by decide

/-- The product's loop is linear in its running operand and its accumulator together. -/
theorem gmulLoop_xor (b : Byte) (n : Nat) (t t' acc acc' : Byte) :
    gmulLoop b n (t ^^^ t') (acc ^^^ acc') = gmulLoop b n t acc ^^^ gmulLoop b n t' acc' := by
  induction n generalizing t t' acc acc' with
  | zero => rfl
  | succ n ih =>
    simp only [gmulLoop, xtime_xor]
    cases b.getLsbD (7 - n) with
    | false => simpa using ih _ _ _ _
    | true =>
      have h : acc ^^^ acc' ^^^ (t ^^^ t') = acc ^^^ t ^^^ (acc' ^^^ t') := by ac_rfl
      simpa [h] using ih _ _ _ _

theorem xtimeN_succ (n : Nat) (b : Byte) : xtimeN (n + 1) b = xtime (xtimeN n b) := rfl

/-- The recurrence reads only the words `i-4` and `i-1` (R174). -/
theorem nextWord_congr {w w' : RoundKeyStore} {i : Nat} (h : 4 ≤ i ∧ i < 44)
    (h4 : w[i - 4] = w'[i - 4]) (h1 : w[i - 1] = w'[i - 1]) : nextWord w i h = nextWord w' i h := by
  simp only [nextWord, h4, h1]

theorem expandKeyTo_zero (key : Block) : expandKeyTo key 0 = loadKey key (Vector.replicate 44 0) := rfl

theorem expandKeyTo_succ (key : Block) (n : Nat) (h : n + 4 < 44) :
    expandKeyTo key (n + 1) =
      (expandKeyTo key n).set (n + 4) (nextWord (expandKeyTo key n) (n + 4) ⟨by omega, h⟩) := by
  simp [expandKeyTo, h]

/-- A word below `n + 4` does not change when word `n + 4` is computed. -/
theorem expandKeyTo_succ_get (key : Block) (n j : Nat) (h : n + 4 < 44) (hj : j < n + 4) :
    (expandKeyTo key (n + 1))[j] = (expandKeyTo key n)[j] := by
  rw [getElem_congr_coll (expandKeyTo_succ key n h), Vector.getElem_set]
  simp
  omega

end Sys2Proof.Machine
end

