-- ==== Sys2Proof/Laws/Decode.lean ====
section
/-! SUPPORT. What the decoder answers on each value of `cmd_op` (R93), one lemma per row. -/

namespace Sys2Proof

/-- The eight values of `cmd_op`. -/
theorem cmdOp_cases : ∀ op : BitVec 3,
    op = 0b000#3 ∨ op = 0b001#3 ∨ op = 0b010#3 ∨ op = 0b011#3 ∨
      op = 0b100#3 ∨ op = 0b101#3 ∨ op = 0b110#3 ∨ op = 0b111#3 := by decide

@[simp] theorem decode_noCommand (op : BitVec 3) (k d : Block) : decode ⟨false, op, k, d⟩ = .noCommand op := by
  simp [decode]

@[simp] theorem decode_nop (k d : Block) : decode ⟨true, 0b000#3, k, d⟩ = .nop := by
  simp [decode]

@[simp] theorem decode_keyExpand (k d : Block) : decode ⟨true, 0b001#3, k, d⟩ = .keyExpand k := by
  simp [decode]

@[simp] theorem decode_encrypt (k d : Block) : decode ⟨true, 0b010#3, k, d⟩ = .encrypt d := by
  simp [decode]

@[simp] theorem decode_decrypt (k d : Block) : decode ⟨true, 0b011#3, k, d⟩ = .decrypt d := by
  simp [decode]

/-- A reserved opcode decodes to itself. -/
theorem decode_reserved (op : BitVec 3) (k d : Block) (h : 4 ≤ op.toNat) :
    decode ⟨true, op, k, d⟩ = .reserved op := by
  rcases cmdOp_cases op with rfl | rfl | rfl | rfl | rfl | rfl | rfl | rfl <;> simp [decode] at h ⊢

end Sys2Proof
end

