-- ==== Sys2Proof/Laws/State.lean ====
section
/-! SUPPORT. One lemma per field per named update of State, each true by unfolding the record update. -/

namespace Sys2Proof.Machine

@[simp] theorem reject_phase (c : ErrCode) (s : State) : (reject c s).phase = s.phase := rfl
@[simp] theorem reject_rnd (c : ErrCode) (s : State) : (reject c s).rnd = s.rnd := rfl
@[simp] theorem reject_kidx (c : ErrCode) (s : State) : (reject c s).kidx = s.kidx := rfl
@[simp] theorem reject_st (c : ErrCode) (s : State) : (reject c s).st = s.st := rfl
@[simp] theorem reject_dataOut (c : ErrCode) (s : State) : (reject c s).dataOut = s.dataOut := rfl
@[simp] theorem reject_rks (c : ErrCode) (s : State) : (reject c s).rks = s.rks := rfl
@[simp] theorem reject_keyValid (c : ErrCode) (s : State) : (reject c s).keyValid = s.keyValid := rfl
@[simp] theorem reject_done (c : ErrCode) (s : State) : (reject c s).done = s.done := rfl
@[simp] theorem reject_errCode (c : ErrCode) (s : State) : (reject c s).errCode = c := rfl
@[simp] theorem reject_inputs (c : ErrCode) (s : State) : (reject c s).inputs = s.inputs := rfl
@[simp] theorem reject_freeCount (c : ErrCode) (s : State) : (reject c s).freeCount = s.freeCount := rfl

@[simp] theorem accept_phase (s : State) : (accept s).phase = s.phase := rfl
@[simp] theorem accept_rnd (s : State) : (accept s).rnd = s.rnd := rfl
@[simp] theorem accept_kidx (s : State) : (accept s).kidx = s.kidx := rfl
@[simp] theorem accept_st (s : State) : (accept s).st = s.st := rfl
@[simp] theorem accept_dataOut (s : State) : (accept s).dataOut = s.dataOut := rfl
@[simp] theorem accept_rks (s : State) : (accept s).rks = s.rks := rfl
@[simp] theorem accept_keyValid (s : State) : (accept s).keyValid = s.keyValid := rfl
@[simp] theorem accept_done (s : State) : (accept s).done = false := rfl
@[simp] theorem accept_errCode (s : State) : (accept s).errCode = .errNone := rfl
@[simp] theorem accept_inputs (s : State) : (accept s).inputs = s.inputs := rfl
@[simp] theorem accept_freeCount (s : State) : (accept s).freeCount = s.freeCount := rfl

@[simp] theorem startKeyExpand_phase (key : Block) (s : State) : (startKeyExpand key s).phase = .kexp := rfl
@[simp] theorem startKeyExpand_rnd (key : Block) (s : State) : (startKeyExpand key s).rnd = s.rnd := rfl
@[simp] theorem startKeyExpand_kidx (key : Block) (s : State) : (startKeyExpand key s).kidx = 4 := rfl
@[simp] theorem startKeyExpand_st (key : Block) (s : State) : (startKeyExpand key s).st = s.st := rfl
@[simp] theorem startKeyExpand_dataOut (key : Block) (s : State) : (startKeyExpand key s).dataOut = s.dataOut := rfl
@[simp] theorem startKeyExpand_rks (key : Block) (s : State) : (startKeyExpand key s).rks = loadKey key s.rks := rfl
@[simp] theorem startKeyExpand_keyValid (key : Block) (s : State) : (startKeyExpand key s).keyValid = false := rfl
@[simp] theorem startKeyExpand_done (key : Block) (s : State) : (startKeyExpand key s).done = s.done := rfl
@[simp] theorem startKeyExpand_errCode (key : Block) (s : State) : (startKeyExpand key s).errCode = s.errCode := rfl
@[simp] theorem startKeyExpand_inputs (key : Block) (s : State) : (startKeyExpand key s).inputs = s.inputs := rfl
@[simp] theorem startKeyExpand_freeCount (key : Block) (s : State) : (startKeyExpand key s).freeCount = s.freeCount := rfl

@[simp] theorem startEncrypt_phase (d : Block) (s : State) : (startEncrypt d s).phase = .enc := rfl
@[simp] theorem startEncrypt_rnd (d : Block) (s : State) : (startEncrypt d s).rnd = 0 := rfl
@[simp] theorem startEncrypt_kidx (d : Block) (s : State) : (startEncrypt d s).kidx = s.kidx := rfl
@[simp] theorem startEncrypt_st (d : Block) (s : State) : (startEncrypt d s).st = d := rfl
@[simp] theorem startEncrypt_dataOut (d : Block) (s : State) : (startEncrypt d s).dataOut = s.dataOut := rfl
@[simp] theorem startEncrypt_rks (d : Block) (s : State) : (startEncrypt d s).rks = s.rks := rfl
@[simp] theorem startEncrypt_keyValid (d : Block) (s : State) : (startEncrypt d s).keyValid = s.keyValid := rfl
@[simp] theorem startEncrypt_done (d : Block) (s : State) : (startEncrypt d s).done = s.done := rfl
@[simp] theorem startEncrypt_errCode (d : Block) (s : State) : (startEncrypt d s).errCode = s.errCode := rfl
@[simp] theorem startEncrypt_inputs (d : Block) (s : State) : (startEncrypt d s).inputs = s.inputs := rfl
@[simp] theorem startEncrypt_freeCount (d : Block) (s : State) : (startEncrypt d s).freeCount = s.freeCount := rfl

@[simp] theorem startDecrypt_phase (d : Block) (s : State) : (startDecrypt d s).phase = .dec := rfl
@[simp] theorem startDecrypt_rnd (d : Block) (s : State) : (startDecrypt d s).rnd = 10 := rfl
@[simp] theorem startDecrypt_kidx (d : Block) (s : State) : (startDecrypt d s).kidx = s.kidx := rfl
@[simp] theorem startDecrypt_st (d : Block) (s : State) : (startDecrypt d s).st = d := rfl
@[simp] theorem startDecrypt_dataOut (d : Block) (s : State) : (startDecrypt d s).dataOut = s.dataOut := rfl
@[simp] theorem startDecrypt_rks (d : Block) (s : State) : (startDecrypt d s).rks = s.rks := rfl
@[simp] theorem startDecrypt_keyValid (d : Block) (s : State) : (startDecrypt d s).keyValid = s.keyValid := rfl
@[simp] theorem startDecrypt_done (d : Block) (s : State) : (startDecrypt d s).done = s.done := rfl
@[simp] theorem startDecrypt_errCode (d : Block) (s : State) : (startDecrypt d s).errCode = s.errCode := rfl
@[simp] theorem startDecrypt_inputs (d : Block) (s : State) : (startDecrypt d s).inputs = s.inputs := rfl
@[simp] theorem startDecrypt_freeCount (d : Block) (s : State) : (startDecrypt d s).freeCount = s.freeCount := rfl

@[simp] theorem finishBlock_phase (r : Block) (s : State) : (finishBlock r s).phase = .idle := rfl
@[simp] theorem finishBlock_rnd (r : Block) (s : State) : (finishBlock r s).rnd = s.rnd := rfl
@[simp] theorem finishBlock_kidx (r : Block) (s : State) : (finishBlock r s).kidx = s.kidx := rfl
@[simp] theorem finishBlock_st (r : Block) (s : State) : (finishBlock r s).st = r := rfl
@[simp] theorem finishBlock_dataOut (r : Block) (s : State) : (finishBlock r s).dataOut = r := rfl
@[simp] theorem finishBlock_rks (r : Block) (s : State) : (finishBlock r s).rks = s.rks := rfl
@[simp] theorem finishBlock_keyValid (r : Block) (s : State) : (finishBlock r s).keyValid = s.keyValid := rfl
@[simp] theorem finishBlock_done (r : Block) (s : State) : (finishBlock r s).done = true := rfl
@[simp] theorem finishBlock_errCode (r : Block) (s : State) : (finishBlock r s).errCode = s.errCode := rfl
@[simp] theorem finishBlock_inputs (r : Block) (s : State) : (finishBlock r s).inputs = s.inputs := rfl
@[simp] theorem finishBlock_freeCount (r : Block) (s : State) : (finishBlock r s).freeCount = s.freeCount := rfl

@[simp] theorem nextStage_phase (r : Block) (k : Fin 11) (s : State) : (nextStage r k s).phase = s.phase := rfl
@[simp] theorem nextStage_rnd (r : Block) (k : Fin 11) (s : State) : (nextStage r k s).rnd = k := rfl
@[simp] theorem nextStage_kidx (r : Block) (k : Fin 11) (s : State) : (nextStage r k s).kidx = s.kidx := rfl
@[simp] theorem nextStage_st (r : Block) (k : Fin 11) (s : State) : (nextStage r k s).st = r := rfl
@[simp] theorem nextStage_dataOut (r : Block) (k : Fin 11) (s : State) : (nextStage r k s).dataOut = s.dataOut := rfl
@[simp] theorem nextStage_rks (r : Block) (k : Fin 11) (s : State) : (nextStage r k s).rks = s.rks := rfl
@[simp] theorem nextStage_keyValid (r : Block) (k : Fin 11) (s : State) : (nextStage r k s).keyValid = s.keyValid := rfl
@[simp] theorem nextStage_done (r : Block) (k : Fin 11) (s : State) : (nextStage r k s).done = s.done := rfl
@[simp] theorem nextStage_errCode (r : Block) (k : Fin 11) (s : State) : (nextStage r k s).errCode = s.errCode := rfl
@[simp] theorem nextStage_inputs (r : Block) (k : Fin 11) (s : State) : (nextStage r k s).inputs = s.inputs := rfl
@[simp] theorem nextStage_freeCount (r : Block) (k : Fin 11) (s : State) : (nextStage r k s).freeCount = s.freeCount := rfl

@[simp] theorem resetEdge_phase (s : State) : (resetEdge s).phase = .idle := rfl
@[simp] theorem resetEdge_rnd (s : State) : (resetEdge s).rnd = 0 := rfl
@[simp] theorem resetEdge_kidx (s : State) : (resetEdge s).kidx = 0 := rfl
@[simp] theorem resetEdge_st (s : State) : (resetEdge s).st = Config.freeBlock s.freeCount s.st := rfl
@[simp] theorem resetEdge_dataOut (s : State) : (resetEdge s).dataOut = 0 := rfl
@[simp] theorem resetEdge_rks (s : State) : (resetEdge s).rks = Vector.ofFn fun i => Config.freeWord s.freeCount i.val s.rks[i] := rfl
@[simp] theorem resetEdge_keyValid (s : State) : (resetEdge s).keyValid = false := rfl
@[simp] theorem resetEdge_done (s : State) : (resetEdge s).done = false := rfl
@[simp] theorem resetEdge_errCode (s : State) : (resetEdge s).errCode = .errNone := rfl
@[simp] theorem resetEdge_inputs (s : State) : (resetEdge s).inputs = s.inputs := rfl
@[simp] theorem resetEdge_freeCount (s : State) : (resetEdge s).freeCount = s.freeCount + 1 := rfl

@[simp] theorem dropInput_phase (s : State) : (s.dropInput).phase = s.phase := rfl
@[simp] theorem dropInput_rnd (s : State) : (s.dropInput).rnd = s.rnd := rfl
@[simp] theorem dropInput_kidx (s : State) : (s.dropInput).kidx = s.kidx := rfl
@[simp] theorem dropInput_st (s : State) : (s.dropInput).st = s.st := rfl
@[simp] theorem dropInput_dataOut (s : State) : (s.dropInput).dataOut = s.dataOut := rfl
@[simp] theorem dropInput_rks (s : State) : (s.dropInput).rks = s.rks := rfl
@[simp] theorem dropInput_keyValid (s : State) : (s.dropInput).keyValid = s.keyValid := rfl
@[simp] theorem dropInput_done (s : State) : (s.dropInput).done = s.done := rfl
@[simp] theorem dropInput_errCode (s : State) : (s.dropInput).errCode = s.errCode := rfl
@[simp] theorem dropInput_inputs (s : State) : (s.dropInput).inputs = s.inputs.tail := rfl
@[simp] theorem dropInput_freeCount (s : State) : (s.dropInput).freeCount = s.freeCount := rfl

@[simp] theorem withNextInputs_phase (s : State) (e : EdgeInputs) : (s.withNextInputs e).phase = s.phase := rfl
@[simp] theorem withNextInputs_rnd (s : State) (e : EdgeInputs) : (s.withNextInputs e).rnd = s.rnd := rfl
@[simp] theorem withNextInputs_kidx (s : State) (e : EdgeInputs) : (s.withNextInputs e).kidx = s.kidx := rfl
@[simp] theorem withNextInputs_st (s : State) (e : EdgeInputs) : (s.withNextInputs e).st = s.st := rfl
@[simp] theorem withNextInputs_dataOut (s : State) (e : EdgeInputs) : (s.withNextInputs e).dataOut = s.dataOut := rfl
@[simp] theorem withNextInputs_rks (s : State) (e : EdgeInputs) : (s.withNextInputs e).rks = s.rks := rfl
@[simp] theorem withNextInputs_keyValid (s : State) (e : EdgeInputs) : (s.withNextInputs e).keyValid = s.keyValid := rfl
@[simp] theorem withNextInputs_done (s : State) (e : EdgeInputs) : (s.withNextInputs e).done = s.done := rfl
@[simp] theorem withNextInputs_errCode (s : State) (e : EdgeInputs) : (s.withNextInputs e).errCode = s.errCode := rfl
@[simp] theorem withNextInputs_inputs (s : State) (e : EdgeInputs) : (s.withNextInputs e).inputs = e :: s.inputs.tail := rfl
@[simp] theorem withNextInputs_freeCount (s : State) (e : EdgeInputs) : (s.withNextInputs e).freeCount = s.freeCount := rfl

end Sys2Proof.Machine
end

