-- ==== Sys2Proof/Laws/Ops.lean ====
section
/-! SUPPORT. What each shared operation can do, said once: presenting a command, a progress edge, an edge, a step. -/

namespace Sys2Proof.Machine

/-- A presented command is either accepted, or rejected with its cause; both are a next state. -/
theorem present_cases (op : BitVec 3) (start : State → State) (s : State) :
    (rejectCause s op = .errNone ∧ present op start s = .next (start (accept s))) ∨
    (rejectCause s op ≠ .errNone ∧ present op start s = .next (reject (rejectCause s op) s)) := by
  unfold present
  cases h : rejectCause s op <;> simp

theorem present_of_accept {op : BitVec 3} {s : State} (start : State → State) (h : rejectCause s op = .errNone) :
    present op start s = .next (start (accept s)) := by
  simp [present, h]

theorem present_of_reject {op : BitVec 3} {s : State} (start : State → State) (h : rejectCause s op ≠ .errNone) :
    present op start s = .next (reject (rejectCause s op) s) := by
  rcases present_cases op start s with ⟨h', _⟩ | ⟨_, e⟩
  · exact absurd h' h
  · exact e

/-- Part (1) of an edge: a next state, which is the state before, a rejection, or an accepted command's writes. -/
theorem exec_cases (i : Instr) (s : State) :
    exec i s = .next s ∨ (∃ c, exec i s = .next (reject c s)) ∨
    (∃ key, i = .keyExpand key ∧ rejectCause s 0b001#3 = .errNone ∧ exec i s = .next (startKeyExpand key (accept s))) ∨
    (∃ d, i = .encrypt d ∧ rejectCause s 0b010#3 = .errNone ∧ exec i s = .next (startEncrypt d (accept s))) ∨
    (∃ d, i = .decrypt d ∧ rejectCause s 0b011#3 = .errNone ∧ exec i s = .next (startDecrypt d (accept s))) := by
  cases i with
  | nop => exact .inl rfl
  | noCommand op => exact .inl rfl
  | reserved op => exact .inr (.inl ⟨_, rfl⟩)
  | keyExpand key =>
    rcases present_cases 0b001#3 (startKeyExpand key) s with ⟨h, e⟩ | ⟨_, e⟩
    · exact .inr (.inr (.inl ⟨key, rfl, h, e⟩))
    · exact .inr (.inl ⟨_, e⟩)
  | encrypt d =>
    rcases present_cases 0b010#3 (startEncrypt d) s with ⟨h, e⟩ | ⟨_, e⟩
    · exact .inr (.inr (.inr (.inl ⟨d, rfl, h, e⟩)))
    · exact .inr (.inl ⟨_, e⟩)
  | decrypt d =>
    rcases present_cases 0b011#3 (startDecrypt d) s with ⟨h, e⟩ | ⟨_, e⟩
    · exact .inr (.inr (.inr (.inr ⟨d, rfl, h, e⟩)))
    · exact .inr (.inl ⟨_, e⟩)

/-- A key-expansion edge inside its range: the word is computed, and at the last word the expansion completes. -/
theorem keyExpandStage_of_range {s : State} (acc : State) (h : 4 ≤ s.kidx.val ∧ s.kidx.val < 44) :
    keyExpandStage s acc = .next { acc with
      rks := acc.rks.set s.kidx.val (nextWord s.rks s.kidx.val h)
      kidx := ⟨s.kidx.val + 1, by omega⟩
      phase := if s.kidx.val = 43 then .idle else acc.phase
      keyValid := if s.kidx.val = 43 then true else acc.keyValid
      done := if s.kidx.val = 43 then true else acc.done } := by
  unfold keyExpandStage
  rw [dif_pos h]
  dsimp only
  split <;> rfl

theorem keyExpandStage_of_not_range {s : State} (acc : State) (h : ¬(4 ≤ s.kidx.val ∧ s.kidx.val < 44)) :
    keyExpandStage s acc = .fault .keyIndexOutOfRange := by
  rw [keyExpandStage, dif_neg h]

/-- A progress edge answers a next state, but for a key index outside its range. -/
theorem progress_next (s acc : State) (h : s.phase = .kexp → 4 ≤ s.kidx.val ∧ s.kidx.val < 44) :
    ∃ t, progress s acc = .next t := by
  cases hp : s.phase with
  | idle => exact ⟨acc, by simp [progress, hp]⟩
  | enc => exact ⟨encryptStage s acc, by simp [progress, hp]⟩
  | dec => exact ⟨decryptStage s acc, by simp [progress, hp]⟩
  | kexp => exact ⟨_, by rw [progress, hp]; exact keyExpandStage_of_range acc (h hp)⟩

theorem progress_of_idle {s : State} (acc : State) (h : s.phase = .idle) : progress s acc = .next acc := by
  simp [progress, h]

/-- A command other than a reserved one is accepted only when the engine is idle (R222). -/
theorem rejectCause_errNone {s : State} {op : BitVec 3} (h : rejectCause s op = .errNone) :
    s.phase = .idle ∧ (op = 0b010#3 ∨ op = 0b011#3 → s.keyValid = true) := by
  unfold rejectCause at h
  split at h
  · cases h
  · split at h
    · cases h
    · split at h
      · cases h
      · rename_i h2 h3
        refine ⟨not_not.mp h2, fun ho => ?_⟩
        cases hk : s.keyValid
        · exact absurd ⟨ho, hk⟩ h3
        · rfl

theorem edge_of_reset {e : EdgeInputs} (s : State) (h : e.rst = true) : edge e s = .next (resetEdge s) := by
  simp [edge, h]

/-- An edge without a reset is part (1), then part (2) (R220). -/
theorem edge_of_exec {e : EdgeInputs} {s acc : State} (h : e.rst = false) (hx : exec (decode e.cmd) s = .next acc) :
    edge e s = progress s acc := by
  simp [edge, h, hx]

/-- Everything an edge that answers a next state can have done. -/
theorem edge_cases {e : EdgeInputs} {s t : State} (h : edge e s = .next t) :
    (e.rst = true ∧ t = resetEdge s) ∨
    (e.rst = false ∧ ∃ acc, exec (decode e.cmd) s = .next acc ∧ progress s acc = .next t) := by
  cases hr : e.rst with
  | true => exact .inl ⟨rfl, by simpa using ((edge_of_reset s hr).symm.trans h).symm⟩
  | false =>
    rcases exec_cases (decode e.cmd) s with hx | ⟨c, hx⟩ | ⟨k, _, _, hx⟩ | ⟨d, _, _, hx⟩ | ⟨d, _, _, hx⟩ <;>
      exact .inr ⟨rfl, _, hx, (edge_of_exec hr hx).symm.trans h⟩

/-- Part (1) on the ports as R220 writes it: a command other than NOP is presented with its opcode, anything else
writes nothing. -/
theorem exec_decode (c : CommandPorts) (s : State) :
    exec (decode c) s =
      if c.cmdValid = true ∧ c.cmdOp ≠ 0b000#3 then
        present c.cmdOp (if c.cmdOp = 0b001#3 then startKeyExpand c.keyIn
          else if c.cmdOp = 0b010#3 then startEncrypt c.dataIn else startDecrypt c.dataIn) s
      else .next s := by
  rcases c with ⟨v, op, k, d⟩
  cases v with
  | false => simp [exec, execNoCommand]
  | true =>
    rcases cmdOp_cases op with rfl | rfl | rfl | rfl | rfl | rfl | rfl | rfl
    · simp [exec, execNop]
    · simp [exec, execKeyExpand]
    · simp [exec, execEncrypt]
    · simp [exec, execDecrypt]
    all_goals
      rw [decode_reserved _ _ _ (by decide)]
      simp [exec, execReserved, present, rejectCause]

/-- While an operation is in progress, whatever is presented writes `err_code` at most. -/
theorem exec_of_busy (i : Instr) {s : State} (h : s.phase ≠ .idle) : ∃ c, exec i s = .next (reject c s) := by
  cases i with
  | nop => exact ⟨s.errCode, rfl⟩
  | noCommand op => exact ⟨s.errCode, rfl⟩
  | reserved op => exact ⟨.errIllegal, rfl⟩
  | keyExpand key => exact ⟨.errBusy, by simp [exec, execKeyExpand, present, rejectCause, h]⟩
  | encrypt d => exact ⟨.errBusy, by simp [exec, execEncrypt, present, rejectCause, h]⟩
  | decrypt d => exact ⟨.errBusy, by simp [exec, execDecrypt, present, rejectCause, h]⟩

/-- A busy engine's edge without a reset is its progress, with some value in `err_code`. -/
theorem edge_of_busy (c : CommandPorts) {s : State} (h : s.phase ≠ .idle) :
    ∃ code, edge ⟨false, c⟩ s = progress s (reject code s) := by
  obtain ⟨code, hx⟩ := exec_of_busy (decode c) h
  exact ⟨code, edge_of_exec rfl hx⟩

/-- An idle engine's edge without a reset is the command alone. -/
theorem edge_of_idle (c : CommandPorts) {s : State} (h : s.phase = .idle) :
    edge ⟨false, c⟩ s = exec (decode c) s := by
  rcases exec_cases (decode c) s with hx | ⟨_, hx⟩ | ⟨_, _, _, hx⟩ | ⟨_, _, _, hx⟩ | ⟨_, _, _, hx⟩ <;>
    rw [edge_of_exec rfl hx, progress_of_idle _ h, hx]

/-- Progress neither reads nor writes `err_code` (R233). -/
theorem progress_reject {s t : State} (code : ErrCode) (h : progress s s = .next t) :
    progress s (reject code s) = .next (reject code t) := by
  cases hp : s.phase with
  | idle => simp only [progress, hp] at h ⊢; cases h; rfl
  | enc =>
    simp only [progress, hp] at h ⊢
    cases h
    simp only [encryptStage]
    split
    · rfl
    · split <;> rfl
  | dec =>
    simp only [progress, hp] at h ⊢
    cases h
    simp only [decryptStage]
    split
    · rfl
    · split <;> rfl
  | kexp =>
    simp only [progress, hp] at h ⊢
    by_cases hr : 4 ≤ s.kidx.val ∧ s.kidx.val < 44
    · rw [keyExpandStage_of_range _ hr] at h ⊢
      cases h
      rfl
    · rw [keyExpandStage_of_not_range _ hr] at h
      cases h

theorem runEdges_cons_next {e : EdgeInputs} {es : List EdgeInputs} {s t : State} (h : edge e s = .next t) :
    runEdges (e :: es) s = runEdges es t := by
  simp [runEdges, h]

theorem step_eq (s : State) : step s = edge s.nextInputs s.dropInput := rfl

@[simp] theorem decode_idleEdge (u : CommandPorts) : decode (idleEdge u).cmd = .noCommand u.cmdOp := rfl

@[simp] theorem idleEdge_rst (u : CommandPorts) : (idleEdge u).rst = false := rfl

@[simp] theorem presentEdge_rst (u : CommandPorts) (i : Instr) : (presentEdge u i).rst = false := rfl

theorem idleEdge_progress (u : CommandPorts) (s : State) : edge (idleEdge u) s = progress s s :=
  edge_of_exec rfl rfl

end Sys2Proof.Machine
end

