-- ==== Sys2Proof/Laws/PerInstr.lean ====
section
/-! SUPPORT. Per instruction: its encoded command word lies in its own row of the opcode table (R93). -/

namespace Sys2Proof.Laws.TableRow

/-- The mask and the match of an instruction's row of spec/opcode_table.json. -/
def row : Instr → BitVec 4 × BitVec 4
  | .nop => (0b1111#4, 0b1000#4)
  | .keyExpand _ => (0b1111#4, 0b1001#4)
  | .encrypt _ => (0b1111#4, 0b1010#4)
  | .decrypt _ => (0b1111#4, 0b1011#4)
  | .reserved _ => (0b1100#4, 0b1100#4)
  | .noCommand _ => (0b1000#4, 0b0000#4)

/-- The encoded word of a well-formed instruction, masked by its row's mask, is its row's match. -/
def Statement (i : Instr) : Prop :=
  i.wellFormed = true → ∀ u : CommandPorts, (encode u i).word &&& (row i).1 = (row i).2

theorem nop : Statement .nop := fun _ _ => by
  show (BitVec.ofBool true ++ 0b000#3) &&& 0b1111#4 = 0b1000#4; decide

theorem keyExpand (key : Block) : Statement (.keyExpand key) := fun _ _ => by
  show (BitVec.ofBool true ++ 0b001#3) &&& 0b1111#4 = 0b1001#4; decide

theorem encrypt (data : Block) : Statement (.encrypt data) := fun _ _ => by
  show (BitVec.ofBool true ++ 0b010#3) &&& 0b1111#4 = 0b1010#4; decide

theorem decrypt (data : Block) : Statement (.decrypt data) := fun _ _ => by
  show (BitVec.ofBool true ++ 0b011#3) &&& 0b1111#4 = 0b1011#4; decide

theorem reserved_word : ∀ op : BitVec 3, 4 ≤ op.toNat → (BitVec.ofBool true ++ op) &&& 0b1100#4 = 0b1100#4 := by
  decide

theorem reserved (op : BitVec 3) : Statement (.reserved op) := fun h _ =>
  reserved_word op (by simpa [Instr.wellFormed] using h)

theorem noCommand_word : ∀ op : BitVec 3, (BitVec.ofBool false ++ op) &&& 0b1000#4 = 0b0000#4 := by decide

theorem noCommand (op : BitVec 3) : Statement (.noCommand op) := fun _ _ => noCommand_word op

end Sys2Proof.Laws.TableRow
end

