-- ==== Sys2Proof/Laws/Program.lean ====
section
/-! SUPPORT. Host programs: the number of edges of a wait is the smallest, a program runs by its list of edges, and
that list is what its encoding writes. -/

namespace Sys2Proof.Machine

/-- The wait and its number of edges agree: after that many idle edges the engine is in the state the wait ends in,
and is not busy. -/
theorem waitCount_ok (u : CommandPorts) (n : Nat) : ∀ {k : Nat} {s : State}, waitCount u n s = .ok k →
    ∃ t, runEdges (List.replicate k (idleEdge u)) s = .next t ∧ t.busy = false ∧ waitIdle u n s = .ok t ∧ k ≤ n := by
  induction n with
  | zero =>
    intro k s h
    cases hb : s.busy <;> simp only [waitCount, hb, reduceIte, Bool.false_eq_true, reduceCtorEq] at h
    cases h
    exact ⟨s, rfl, hb, by simp [waitIdle, hb], Nat.le_refl 0⟩
  | succ n ih =>
    intro k s h
    cases hb : s.busy <;> simp only [waitCount, hb, reduceIte, Bool.false_eq_true] at h
    · cases h
      exact ⟨s, rfl, hb, by simp [waitIdle, hb], Nat.zero_le _⟩
    · cases he : edge (idleEdge u) s with
      | next t =>
        simp only [he] at h
        cases hw : waitCount u n t with
        | error e => simp [hw, Except.map] at h
        | ok j =>
          simp only [hw, Except.map, Except.ok.injEq] at h
          subst h
          obtain ⟨t', hr, hb', hi, hj⟩ := ih hw
          exact ⟨t', by rw [List.replicate_succ, runEdges_cons_next he, hr], hb',
            by simp [waitIdle, hb, he, hi], Nat.succ_le_succ hj⟩
      | fault f => simp [he] at h
      | refused r => simp [he] at h

/-- No smaller number of idle edges ends the wait (R99: "the smallest n"). -/
theorem waitCount_smallest (u : CommandPorts) (n : Nat) : ∀ {k j : Nat} {s t : State}, waitCount u n s = .ok k →
    j < k → runEdges (List.replicate j (idleEdge u)) s = .next t → t.busy = true := by
  induction n with
  | zero =>
    intro k j s t h hj
    cases hb : s.busy <;> simp only [waitCount, hb, reduceIte, Bool.false_eq_true, reduceCtorEq] at h
    cases h; omega
  | succ n ih =>
    intro k j s t h hj hr
    cases hb : s.busy <;> simp only [waitCount, hb, reduceIte, Bool.false_eq_true] at h
    · cases h; omega
    · cases j with
      | zero => cases hr; exact hb
      | succ j =>
        cases he : edge (idleEdge u) s with
        | next t' =>
          simp only [he] at h
          cases hw : waitCount u n t' with
          | error e => simp [hw, Except.map] at h
          | ok i =>
            simp only [hw, Except.map, Except.ok.injEq] at h
            rw [List.replicate_succ, runEdges_cons_next he] at hr
            exact ih hw (by omega) hr
        | fault f => simp [he] at h
        | refused r => simp [he] at h

/-- Running one list of edges after another is running the two as one list. -/
theorem runEdges_append {es fs : List EdgeInputs} : ∀ {s t : State}, runEdges es s = .next t →
    runEdges (es ++ fs) s = runEdges fs t := by
  induction es with
  | nil => intro s t h; cases h; rfl
  | cons e es ih =>
    intro s t h
    cases he : edge e s with
    | next m =>
      rw [runEdges_cons_next he] at h
      rw [List.cons_append, runEdges_cons_next he, ih h]
    | fault f => simp [runEdges, he] at h
    | refused r => simp [runEdges, he] at h

/-- The edges of a statement lead to the state it ends in. -/
theorem runStmtEdges_ok {u : CommandPorts} {stmt : Stmt} {s t : State} {es : List EdgeInputs}
    (h : runStmtEdges u stmt s = .ok (es, t)) : runEdges es s = .next t := by
  unfold runStmtEdges at h
  split at h
  · cases h
  · split at h
    · rename_i hr; cases h; exact hr
    · cases h
    · cases h

/-- A statement without WAIT runs exactly the edges R98 gives it. -/
theorem runStmtEdges_plain {u : CommandPorts} {stmt : Stmt} {s t : State} (h : stmt ≠ .wait)
    (hr : runEdges (stmt.edges u) s = .next t) : runStmtEdges u stmt s = .ok (stmt.edges u, t) := by
  cases stmt <;> first | exact absurd rfl h | simp [runStmtEdges, Stmt.expand, hr]

/-- A program that runs to its end has a list of edges, and running that list ends in the same state. -/
theorem runProgram_edges {u : CommandPorts} {p : List Stmt} : ∀ {s t : State}, runProgram u p s = .ok t →
    ∃ es, programEdges u p s = .ok es ∧ runEdges es s = .next t := by
  induction p with
  | nil => intro s t h; cases h; exact ⟨[], rfl, rfl⟩
  | cons stmt rest ih =>
    intro s t h
    simp only [runProgram, runStmt] at h
    cases hf : stmt.failedCheck s with
    | some c => simp [hf] at h
    | none =>
      cases he : runStmtEdges u stmt s with
      | error e => simp [hf, he, Except.map] at h
      | ok r =>
        obtain ⟨es, m⟩ := r
        simp only [hf, he, Except.map] at h
        obtain ⟨fs, hp, hr⟩ := ih h
        exact ⟨es ++ fs, by simp [programEdges, he, hp, Except.map], by rw [runEdges_append (runStmtEdges_ok he), hr]⟩

end Sys2Proof.Machine
end

