-- ==== Sys2Proof/Tests/Slice0.lean ====
section
/-! SUPPORT. The model's own tests: the WellFormed smoke, decoding by words written out from R93, at most two tests
per instruction, the worked examples of spec/95_test_vectors.md for the datapath and the host, and a witness
for the hypotheses of each obligation that has them. -/

namespace Sys2Proof.Tests

open Sys2Proof Sys2Proof.Machine

/-! ## WellFormed -/

/-- R94: an opcode below 0b100 is no reserved opcode. -/
theorem test_reserved_below_100_is_ill_formed : (Instr.reserved 0b011#3).wellFormed = false := by decide

theorem test_reserved_100_is_well_formed : (Instr.reserved 0b100#3).wellFormed = true := by decide

/-! ## Decode: words from R93 -/

theorem test_decode_nop : decode (.ofWord 0b1000#4 7 9) = .nop := by decide
theorem test_decode_keyExpand : decode (.ofWord 0b1001#4 7 9) = .keyExpand 7 := by decide
theorem test_decode_encrypt : decode (.ofWord 0b1010#4 7 9) = .encrypt 9 := by decide
theorem test_decode_decrypt : decode (.ofWord 0b1011#4 7 9) = .decrypt 9 := by decide
theorem test_decode_reserved : decode (.ofWord 0b1101#4 7 9) = .reserved 0b101#3 := by decide
theorem test_decode_noCommand : decode (.ofWord 0b0010#4 7 9) = .noCommand 0b010#3 := by decide
theorem test_decode_wide_word_refused :
    (match decodeBits 0x19 0 0 with | .error .notACommandWord => true | _ => false) = true := by decide

/-- R100: the example of the rule. -/
theorem test_encodeEdge_encrypt :
    encodeEdge ⟨false, ⟨true, 0b010#3, 0, 0x00112233445566778899aabbccddeeff⟩⟩ =
      ⟨0b1010#4, false, some 0x00112233445566778899aabbccddeeff⟩ := by decide

theorem test_decodeEdge_without_operand_refused :
    (match decodeEdge ⟨false, 0, 0, 0⟩ ⟨0b1010#4, false, none⟩ with
      | .error .operandMissing => true | _ => false) = true := by decide

/-! ## The commands, one edge each -/

/-- A small state: idle with a valid schedule, an earlier error and an earlier completion. -/
def ready : State := { State.reset with keyValid := true, done := true, errCode := .errIllegal, dataOut := 5 }

/-- A small state: a key expansion at word `i`. -/
def expanding (i : Fin 45) : State := { State.reset with phase := .kexp, kidx := i }

/-- A small state: an encryption at stage `k`. -/
def encrypting (k : Fin 11) : State := { ready with phase := .enc, rnd := k, done := false }

/-- A small state: a decryption at stage `k`. -/
def decrypting (k : Fin 11) : State := { ready with phase := .dec, rnd := k, done := false }

/-- The state a result holds, `State.reset` where it is a stop. -/
def after (r : Result) : State :=
  match r with
  | .next s => s
  | .fault _ => State.reset
  | .refused _ => State.reset

/-- The ports of a test: nothing presented. -/
def ports : CommandPorts := ⟨false, 0, 0, 0⟩

/-- P3 edge 4: NOP leaves `err_code`. -/
theorem test_nop_keeps_errCode : (after (exec .nop ready)).errCode = .errIllegal := by decide

/-- V19: KEY_EXPAND accepted clears `key_valid` and loads w[0..3] (P1 edge 1). -/
theorem test_keyExpand_accepted :
    let t := after (exec (.keyExpand 0x000102030405060708090a0b0c0d0e0f) ready)
    (t.phase, t.keyValid, t.errCode, t.rks[0], t.rks[3]) = (.kexp, false, .errNone, 0x00010203, 0x0c0d0e0f) := by
  decide

/-- V19: KEY_EXPAND while busy is ERR_BUSY and samples nothing (P3 edge 8). -/
theorem test_keyExpand_busy :
    let t := after (exec (.keyExpand 1) (expanding 6))
    (t.errCode, t.rks[3], t.kidx) = (.errBusy, 0, 6) := by decide

/-- P1 edge 42. -/
theorem test_encrypt_accepted :
    let t := after (exec (.encrypt 9) ready)
    (t.phase, t.rnd, t.st, t.done, t.errCode, t.dataOut) = (.enc, 0, 9, false, .errNone, 5) := by decide

/-- P3 edge 1. -/
theorem test_encrypt_without_key :
    let t := after (exec (.encrypt 9) State.reset)
    (t.phase, t.st, t.errCode) = (.idle, 0, .errNoKey) := by decide

/-- P2 edge 54. -/
theorem test_decrypt_accepted :
    let t := after (exec (.decrypt 9) ready)
    (t.phase, t.rnd, t.st, t.done) = (.dec, 10, 9, false) := by decide

theorem test_decrypt_busy : (after (exec (.decrypt 9) (encrypting 3))).errCode = .errBusy := by decide

/-- P3 edge 7: ERR_ILLEGAL beats ERR_BUSY. -/
theorem test_reserved_busy : (after (exec (.reserved 0b111#3) (expanding 5))).errCode = .errIllegal := by decide

/-- R95. -/
theorem test_noCommand : (after (exec (.noCommand 0b001#3) ready)).errCode = .errIllegal := by decide

/-! ## Progress and reset edges -/

/-- P1 edge 2: RKS[4] for the key of V4, and `kidx` 5. -/
theorem test_first_expansion_edge :
    let s := after (exec (.keyExpand 0x000102030405060708090a0b0c0d0e0f) State.reset)
    let t := after (edge (idleEdge ports) s)
    (t.rks[4], t.kidx, t.phase) = (0xd6aa74fd, 5, .kexp) := by decide +kernel

/-- R230 at the last word. -/
theorem test_last_expansion_edge :
    let t := after (edge (idleEdge ports) (expanding 43))
    (t.phase, t.keyValid, t.done, t.kidx) = (.idle, true, true, 44) := by decide +kernel

/-- P5 edge 41: a command at the completion edge is rejected although the engine is then idle. -/
theorem test_completion_edge_hazard :
    let t := after (edge (presentEdge ports (.encrypt 1)) (expanding 43))
    (t.phase, t.done, t.errCode) = (.idle, true, .errBusy) := by decide +kernel

/-- P1 edge 43. -/
theorem test_initial_stage :
    let s := { encrypting 0 with
      st := 0x00112233445566778899aabbccddeeff
      rks := loadKey 0x000102030405060708090a0b0c0d0e0f State.reset.rks }
    let t := after (edge (idleEdge ports) s)
    (t.st, t.rnd, t.dataOut) = (0x00102030405060708090a0b0c0d0e0f0, 1, 5) := by decide +kernel

/-- R290: a presented command is ignored, `done` and the result are cleared. -/
theorem test_reset_edge :
    let t := after (edge ⟨true, ⟨true, 0b010#3, 0, 0⟩⟩ (encrypting 10))
    (t.phase, t.done, t.keyValid, t.errCode, t.dataOut, t.rnd) = (.idle, false, false, .errNone, 0, 0) := by decide

/-- The next listed inputs are taken; the rest stay listed. -/
theorem test_step_takes_one_input :
    let t := after (step { ready with inputs := [⟨false, .ofWord 0b1111#4 0 0⟩, idleEdge ports] })
    (t.errCode, t.inputs) = (.errIllegal, [idleEdge ports]) := by decide

/-! ## Datapath: the vectors of spec/95_test_vectors.md -/

/-- V6. -/
theorem test_xtime : (xtime 0x57, xtime 0xAE, xtime 0x80, xtime 0xFF) = (0xAE, 0x47, 0x1B, 0xE5) := by decide

/-- V7. -/
theorem test_gmul :
    (gmul 0x57 0x83, gmul 0x57 0x13, gmul 0x53 0xCA, gmul 0x0E 0x47) = (0xC1, 0xFE, 0x01, 0x87) := by decide +kernel

/-- V10. -/
theorem test_sbox :
    (substituteByte 0x53 SBOX, substituteByte 0x10 SBOX, substituteByte 0x16 INV_SBOX) = (0xED, 0xCA, 0xFF) := by
  decide +kernel

/-- V11. -/
theorem test_subBytes :
    subBytes 0x000102030405060708090a0b0c0d0e0f = 0x637c777bf26b6fc53001672bfed7ab76 := by decide +kernel

/-- V12. -/
theorem test_shiftRows :
    (shiftRows 0x000102030405060708090a0b0c0d0e0f, invShiftRows 0x000102030405060708090a0b0c0d0e0f) =
      (0x00050a0f04090e03080d02070c01060b, 0x000d0a0704010e0b0805020f0c090603) := by decide +kernel

/-- V14. -/
theorem test_mixColumns :
    mixColumns 0x000102030405060708090a0b0c0d0e0f = 0x02070005060304010a0f080d0e0b0c09 := by decide +kernel

/-- V5, steps inside DecRound 9: InvMixColumns, then InvShiftRows, then InvSubBytes. -/
theorem test_invMixColumns :
    invMixColumns 0xe9f74eec023020f61bf2ccf2353c21c7 = 0x54d990a16ba09ab596bbf40ea111702f := by decide +kernel

theorem test_invSubBytes :
    invSubBytes 0x5411f4b56bd9700e96a0902fa1bb9aa1 = 0xfde3bad205e5d0d73547964ef1fe37f1 := by decide +kernel

/-- V16. -/
theorem test_tWord : (tWord 0x09cf4f3c 4, tWord 0x09cf4f3c 40) = (0x8b84eb01, 0xbc84eb01) := by decide +kernel

/-! ## The host: the vectors V21 and V22 -/

theorem test_normalizeKey_short :
    normalizeKey [0x61, 0x62, 0x63] = 0x61626300000000000000000000000000 := by decide +kernel

/-- V21: `pad("abc")`. -/
theorem test_pad_abc :
    (match pad (bitsOfBytes [0x61, 0x62, 0x63]) with
      | .ok m => blockOfBits m | .error _ => 0) = 0x6162630000000000000000000000000d := by decide +kernel

/-- V21: `unpad(aabb02)` is `aa`. -/
theorem test_unpad :
    (match unpad (bitsOfBytes [0xaa, 0xbb, 0x02]) with
      | .ok m => m | .error _ => []) = bitsOfBytes [0xaa] := by decide +kernel

/-- V22: `unpad(02)` declares 16 bits of 8. -/
theorem test_unpad_corrupt :
    (match unpad (bitsOfBytes [0x02]) with
      | .error (.corruptPadding n) => n | _ => 0) = 2 := by decide +kernel

/-- P3 edge 3 as program text. -/
theorem test_parse_cmd :
    (match parseLine ['@', '3', ' ', 'C', 'M', 'D', ' ', '1', '0', '1', ' ', ';', 'x'] with
      | .ok l => l | .error _ => none) = some ⟨some 3, .cmd 0b101#3⟩ := by decide +kernel

/-- R227's example writes the opcode as `0b111`, P3 edge 7 as `111`. -/
theorem test_parse_bin3 :
    [bin3 ['0', 'b', '1', '1', '1'], bin3 ['1', '1', '1'], bin3 ['0', 'b', '1']].map (·.toOption) =
      [some 0b111#3, some 0b111#3, none] := by decide +kernel

/-- R99: WAIT is IDLE 40 after an accepted KEY_EXPAND, and IDLE 11 after an accepted ENCRYPT. -/
theorem test_wait_expands :
    [after (exec (.keyExpand 0) State.reset), after (exec (.encrypt 9) ready), ready].map
      (fun s => (waitCount ports Config.hostWaitEdges s).toOption) = [some 40, some 11, some 0] := by decide +kernel

/-- R100, R99: the encoding of `ENCRYPT ...09`, WAIT, DECRYPT writes the 11 edges that WAIT stands for. -/
theorem test_encodeProgram_with_wait :
    (encodeProgram ports [.encrypt 9, .wait, .decrypt 7] ready).toOption =
      some ([⟨0b1010#4, false, some 9⟩] ++ List.replicate 11 ⟨0b0000#4, false, none⟩ ++
        [⟨0b1011#4, false, some 7⟩]) := by decide +kernel

/-! ## Witnesses: the hypotheses of each obligation that has them are met -/

theorem witness_DecodeOfEncodeIsIdentity : (Instr.reserved 0b111#3).wellFormed = true := by decide

theorem witness_IgnoredOperandPortsHaveNoEffect : 4 ≤ (0b100#3).toNat ∧ 4 ≤ (0b111#3).toNat := by decide

theorem witness_EncodedEdgeKeepsItsCommand : (presentEdge ports (.encrypt 1)).rst = false := by decide

theorem witness_StepRunsTheDecodedInstruction :
    let s := { ready with inputs := [presentEdge ports (.encrypt 9), idleEdge ports] }
    s.inputs = presentEdge ports (.encrypt 9) :: [idleEdge ports] ∧ (presentEdge ports (.encrypt 9)).rst = false ∧
      decode (presentEdge ports (.encrypt 9)).cmd = .encrypt 9 ∧
      exec (.encrypt 9) { s with inputs := [idleEdge ports] } =
        .next (startEncrypt 9 (accept { s with inputs := [idleEdge ports] })) ∧
      (Instr.reserved 0b100#3).wellFormed = true :=
  ⟨rfl, rfl, by decide, rfl, rfl⟩

theorem witness_NoListedInputsMeansNoCommand : State.reset.inputs = [] := rfl

theorem witness_NoCommandWhateverThePortsHold : ready.phase = .idle := rfl

theorem witness_KeyExpandIsAcceptedWhenIdle : State.reset.phase = .idle := rfl

theorem witness_EncryptIsAcceptedWithAKey : ready.phase = .idle ∧ ready.keyValid = true := by decide

theorem witness_DecryptIsAcceptedWithAKey : ready.phase = .idle ∧ ready.keyValid = true := by decide

theorem witness_ReservedOpcodesAreIllegal :
    4 ≤ (0b100#3).toNat ∧ edge (idleEdge ports) ready = .next ready := ⟨by decide, rfl⟩

/-- Each clause of the acceptance test, at the opcodes where the clauses meet. -/
theorem witness_RejectCauseHasItsPriority :
    4 ≤ (0b100#3).toNat ∧ ((0b011#3).toNat < 4 ∧ (encrypting 0).phase ≠ .idle) ∧
      (0b010#3 = 0b010#3 ∧ State.reset.phase = .idle ∧ State.reset.keyValid = false) ∧
      (0b011#3 = 0b011#3 ∧ ready.phase = .idle ∧ ready.keyValid = true) ∧
      ((0b001#3).toNat < 2 ∧ State.reset.phase = .idle) ∧
      ((encrypting 3).phase = (encrypting 0).phase ∧ (encrypting 3).keyValid = (encrypting 0).keyValid) := by
  decide

theorem witness_RejectionWritesOnlyErrCode :
    0b010#3 ≠ 0b000#3 ∧ rejectCause State.reset 0b010#3 ≠ .errNone ∧
      edge (idleEdge ports) State.reset = .next State.reset := ⟨by decide, by decide, rfl⟩

theorem witness_AcceptanceEffect : acceptsCommand (presentEdge ports (.decrypt 1)) ready = true := by decide

/-- Both ends of the index range. -/
theorem witness_KeyExpandProgressEdge :
    ((expanding 4).phase = .kexp ∧ 4 ≤ (expanding 4).kidx.val ∧ (expanding 4).kidx.val < 44) ∧
      ((expanding 43).phase = .kexp ∧ 4 ≤ (expanding 43).kidx.val ∧ (expanding 43).kidx.val = 43) := by decide

/-- Each stage clause at its boundary. -/
theorem witness_EncryptProgressEdge :
    (∀ k : Fin 11, (encrypting k).phase = .enc) ∧ (encrypting 0).rnd.val = 0 ∧ (encrypting 1).rnd.val = 1 ∧
      (encrypting 9).rnd.val = 9 ∧ (encrypting 10).rnd.val = 10 := by decide

theorem witness_DecryptProgressEdge :
    (∀ k : Fin 11, (decrypting k).phase = .dec) ∧ (decrypting 10).rnd.val = 10 ∧ (decrypting 9).rnd.val = 9 ∧
      (decrypting 1).rnd.val = 1 ∧ (decrypting 0).rnd.val = 0 := by decide

theorem witness_KeyIndexOutsideItsRangeFaults :
    (expanding 3).phase = .kexp ∧ (expanding 3).kidx.val < 4 ∧ 43 < (expanding 44).kidx.val := by decide

/-- A completion edge that changes `data_out`. -/
theorem witness_DataOutChangesOnlyAtCompletion :
    ∃ t, edge (idleEdge ports) (decrypting 0) = .next t ∧ t.dataOut ≠ (decrypting 0).dataOut ∧
      (idleEdge ports).rst = false ∧ (decrypting 0).phase = .dec ∧ (decrypting 0).rnd.val = 0 ∧
      (encrypting 10).phase = .enc ∧ (encrypting 10).rnd.val = 10 :=
  ⟨_, rfl, by decide +kernel, rfl, rfl, rfl, rfl, rfl⟩

/-- A KEY_EXPAND that changes the store. -/
theorem witness_KeyStoreChangesOnlyByKeyExpand :
    ∃ t, edge (presentEdge ports (.keyExpand 1)) State.reset = .next t ∧
      (presentEdge ports (.keyExpand 1)).rst = false ∧ t.rks[(3 : Fin 44)] ≠ State.reset.rks[(3 : Fin 44)] :=
  ⟨_, rfl, rfl, by decide +kernel⟩

theorem witness_KeyValidRule :
    ∃ t, edge (presentEdge ports (.keyExpand 1)) ready = .next t := ⟨_, rfl⟩

theorem witness_DoneRule :
    ∃ t, edge (idleEdge ports) (encrypting 10) = .next t ∧ completesNext (encrypting 10) = true := ⟨_, rfl, rfl⟩

theorem witness_ErrCodeRule : ∃ t, edge (presentEdge ports (.encrypt 1)) (encrypting 3) = .next t := ⟨_, rfl⟩

theorem noReset_idle (n : Nat) : NoReset (List.replicate n (idleEdge ports)) := by
  intro e he
  rw [List.eq_of_mem_replicate he]
  rfl

theorem witness_KeyExpandCommand :
    (encrypting 0).phase ≠ .idle ∧ State.reset.phase = .idle ∧
      NoReset (List.replicate 40 (idleEdge ports)) ∧ (List.replicate 40 (idleEdge ports)).length ≤ 40 ∧
      (List.replicate 39 (idleEdge ports)).length < 40 :=
  ⟨by decide, rfl, noReset_idle 40, by simp, by simp⟩

theorem witness_EncryptCommand :
    (expanding 4).phase ≠ .idle ∧ (State.reset.phase = .idle ∧ State.reset.keyValid = false) ∧
      (ready.phase = .idle ∧ ready.keyValid = true) ∧ NoReset (List.replicate 11 (idleEdge ports)) ∧
      (List.replicate 11 (idleEdge ports)).length = 11 ∧ (List.replicate 10 (idleEdge ports)).length < 11 :=
  ⟨by decide, by decide, by decide, noReset_idle 11, by simp, by simp⟩

theorem witness_DecryptCommand :
    (expanding 4).phase ≠ .idle ∧ (State.reset.phase = .idle ∧ State.reset.keyValid = false) ∧
      (ready.phase = .idle ∧ ready.keyValid = true) ∧ NoReset (List.replicate 11 (idleEdge ports)) ∧
      (List.replicate 11 (idleEdge ports)).length = 11 ∧ (List.replicate 10 (idleEdge ports)).length < 11 :=
  ⟨by decide, by decide, by decide, noReset_idle 11, by simp, by simp⟩

theorem witness_CompletionEdgeHazard :
    completesNext (encrypting 10) = true ∧ completesNext (decrypting 0) = true ∧
      completesNext (expanding 43) = true ∧ 0b001#3 ≠ 0b000#3 ∧ (0b001#3).toNat < 4 ∧ (0b011#3).toNat < 4 := by
  decide

/-- Two engines that agree on RKS and differ elsewhere. -/
theorem witness_BlocksAreIndependent :
    let s' := { ready with st := 3, rnd := 7, kidx := 44, dataOut := 6, errCode := .errNone, done := false }
    ready.phase = .idle ∧ s'.phase = .idle ∧ ready.keyValid = true ∧ s'.keyValid = true ∧ ready.rks = s'.rks ∧
      ready.dataOut ≠ s'.dataOut ∧ NoReset (List.replicate 11 (idleEdge ports)) ∧
      (List.replicate 11 (idleEdge ports)).length = 11 :=
  ⟨rfl, rfl, rfl, rfl, rfl, by decide, noReset_idle 11, by simp⟩

/-- A state that meets R49 in the middle of an expansion: the first word is about to be computed. -/
theorem witness_StepKeepsTheReachableStateInvariant :
    let s := after (exec (.keyExpand 5) State.reset)
    s.Inv 5 ∧ ∃ t, step s = .next t := by
  refine ⟨⟨fun h => ?_, fun _ => ⟨rfl, by decide, by decide, ?_⟩, fun h => ?_, fun h => ?_, fun _ => rfl⟩, _, rfl⟩
  · exact absurd h (by decide)
  · decide +kernel
  · exact absurd h (by decide)
  · exact absurd h (by decide)

/-- The same state is a witness for the run statement and for the message statements. -/
theorem witness_RunsFromTheInvariantNeverStop : (after (exec (.keyExpand 5) State.reset)).Inv 5 :=
  witness_StepKeepsTheReachableStateInvariant.1

theorem witness_GmulFieldLaws : (0x80#8) ≠ 0x00#8 := by decide

theorem witness_RoundConstants : 2 ≤ 2 ∧ 2 ≤ 10 := by decide

theorem witness_SboxIsAffineOfInverse : (0xFF#8) ≠ 0x00#8 := by decide

/-- Row 3 at column 3: the column indexes meet their equations where they wrap. -/
theorem witness_ShiftRowsRotatesTheRows :
    (2 : Fin 4).val = ((3 : Fin 4).val + (3 : Fin 4).val) % 4 ∧
      ((0 : Fin 4).val + (3 : Fin 4).val) % 4 = (3 : Fin 4).val := by decide

/-- A State with a column of four equal bytes (V13). -/
theorem witness_MixColumnsWrittenOut :
    let s : Block := 0xc6c6c6c6000000000000000000000000
    elem s 1 0 = elem s 0 0 ∧ elem s 2 0 = elem s 0 0 ∧ elem s 3 0 = elem s 0 0 := by decide +kernel

theorem witness_AddRoundKeyIsBytewiseXor : (43 : Fin 44).val = 4 * (10 : Fin 11).val + (3 : Fin 4).val := by decide

theorem witness_KeyScheduleWordFunctions :
    (0 : Fin 4).val = ((3 : Fin 4).val + 1) % 4 ∧ (4 % 4 = 0 ∧ 4 ≤ 4 ∧ 4 ≤ 40) ∧ (40 % 4 = 0 ∧ 4 ≤ 40 ∧ 40 ≤ 40) := by
  decide

theorem witness_ExpandedKeySatisfiesTheRecurrence :
    ((3 : Fin 44).val + 1 = (4 : Fin 44).val ∧ (0 : Fin 44).val + 4 = (4 : Fin 44).val) ∧
      ((42 : Fin 44).val + 1 = (43 : Fin 44).val ∧ (39 : Fin 44).val + 4 = (43 : Fin 44).val) ∧
      (3 : Fin 44).val < 4 := by decide

theorem witness_PaddingRule : (List.replicate 7 true).length % 8 ≠ 0 ∧ (List.replicate 128 true).length % 8 = 0 := by
  decide

/-- Each clause at its boundary: too short; declaring one byte more than there is; declaring exactly all. -/
theorem witness_UnpaddingRule :
    (List.replicate 7 true).length < 8 ∧ (bits8 2).length = 8 ∧ ([] : Message).length + 8 < 8 * unsigned (bits8 2) ∧
      (bits8 1).length = 8 ∧ 8 * unsigned (bits8 1) ≤ ([] : Message).length + 8 := by decide

theorem witness_MessageEncryptionIsBlockwise :
    (after (exec (.keyExpand 5) State.reset)).Inv 5 ∧ (List.replicate 7 true).length % 8 ≠ 0 ∧
      ([] : Message).length % 8 = 0 :=
  ⟨witness_RunsFromTheInvariantNeverStop, by decide, by decide⟩

/-- The error clauses at lengths 120 and 0 (V22); the success clause at the encrypted empty message (V20). -/
theorem witness_MessageDecryptionIsBlockwise :
    (after (exec (.keyExpand 5) State.reset)).Inv 5 ∧ (List.replicate 120 true).length % 128 ≠ 0 ∧
      (([] : Message).length % 128 = 0 ∧ ∃ e, unpad ((splitBlocks []).flatMap (fun b =>
        bitsOfBlock (invCipher (expandKey (normalizeKey [])) (blockOfBits b)))) = .error e) ∧
      ((bitsOfBlock 0xd565ee30a47ff43e31f14a71bbf8beb7).length % 128 = 0 ∧
        (match unpad ((splitBlocks (bitsOfBlock 0xd565ee30a47ff43e31f14a71bbf8beb7)).flatMap (fun b =>
          bitsOfBlock (invCipher (expandKey (normalizeKey
            [0, 1, 2, 3, 4, 5, 6, 7, 8, 9, 10, 11, 12, 13, 14, 15])) (blockOfBits b)))) with
          | .ok plain => plain | .error _ => [true]) = []) :=
  ⟨witness_RunsFromTheInvariantNeverStop, by decide, ⟨by decide, _, rfl⟩, by simp [bitsOfBlock], by decide +kernel⟩

theorem witness_MessageRoundTrip :
    (after (exec (.keyExpand 5) State.reset)).Inv 5 ∧ (List.replicate 8 true).length % 8 = 0 :=
  ⟨witness_RunsFromTheInvariantNeverStop, by decide⟩

end Sys2Proof.Tests
end

/-! # Proofs of the statements about the state (spec/10_state.md)

What an edge can do is said once, in `edge_outcome`: it resets, or lets the operation in progress advance beside a
command that is not accepted, or accepts a command. What progress does to each register is a layer of its own,
and so are the words of the key schedule. The register rules and the invariants' step lemma are read off these. -/

namespace Sys2Proof.Machine

/-! ## Part (1) of an edge: acceptance, and the outcome of a command -/

/-- What an accepted command with these ports writes beside `accept` (R224 to R226). -/
def startCommand (c : CommandPorts) : State → State :=
  if c.cmdOp = 0b001#3 then startKeyExpand c.keyIn
  else if c.cmdOp = 0b010#3 then startEncrypt c.dataIn
  else startDecrypt c.dataIn

/-- `err_code` after part (1) of an edge: the outcome of a command other than NOP, else the old value (R42). -/
def errAfter (c : CommandPorts) (s : State) : ErrCode :=
  if c.cmdValid && decide (c.cmdOp ≠ 0b000#3) then rejectCause s c.cmdOp else s.errCode

theorem acceptsCommand_iff {e : EdgeInputs} {s : State} :
    acceptsCommand e s = true ↔
      e.rst = false ∧ e.cmd.cmdValid = true ∧ e.cmd.cmdOp ≠ 0b000#3 ∧ rejectCause s e.cmd.cmdOp = .errNone := by
  simp [acceptsCommand, and_assoc]

theorem phase_idle_of_accepts {e : EdgeInputs} {s : State} (h : acceptsCommand e s = true) : s.phase = .idle := by
  obtain ⟨_, _, _, hc⟩ := acceptsCommand_iff.mp h
  exact (rejectCause_errNone hc).1

theorem rst_of_accepts {e : EdgeInputs} {s : State} (h : acceptsCommand e s = true) : e.rst = false :=
  (acceptsCommand_iff.mp h).1

/-- The commands that can be accepted are KEY_EXPAND, ENCRYPT and DECRYPT (R229). -/
theorem cmdOp_of_accepts {e : EdgeInputs} {s : State} (h : acceptsCommand e s = true) :
    e.cmd.cmdOp = 0b001#3 ∨ e.cmd.cmdOp = 0b010#3 ∨ e.cmd.cmdOp = 0b011#3 := by
  obtain ⟨_, _, ho, hc⟩ := acceptsCommand_iff.mp h
  rcases cmdOp_cases e.cmd.cmdOp with h0 | h1 | h2 | h3 | hres
  · exact absurd h0 ho
  · exact .inl h1
  · exact .inr (.inl h2)
  · exact .inr (.inr h3)
  · simp [rejectCause, hres] at hc

/-- ENCRYPT and DECRYPT are accepted only under a valid key schedule (R222). -/
theorem keyValid_of_accepts {e : EdgeInputs} {s : State} (h : acceptsCommand e s = true)
    (ho : e.cmd.cmdOp ≠ 0b001#3) : s.keyValid = true := by
  obtain ⟨_, _, _, hc⟩ := acceptsCommand_iff.mp h
  exact (rejectCause_errNone hc).2 ((cmdOp_of_accepts h).resolve_left ho)

theorem startCommand_cases (c : CommandPorts) (s : State) :
    (c.cmdOp = 0b001#3 ∧ startCommand c s = startKeyExpand c.keyIn s) ∨
    (c.cmdOp ≠ 0b001#3 ∧ (startCommand c s = startEncrypt c.dataIn s ∨ startCommand c s = startDecrypt c.dataIn s)) := by
  unfold startCommand
  split
  · exact .inl ⟨‹_›, rfl⟩
  · refine .inr ⟨‹_›, ?_⟩
    split
    · exact .inl rfl
    · exact .inr rfl

@[simp] theorem startCommand_errCode (c : CommandPorts) (s : State) : (startCommand c s).errCode = s.errCode := by
  rcases startCommand_cases c s with ⟨_, h⟩ | ⟨_, h | h⟩ <;> simp [h]

@[simp] theorem startCommand_done (c : CommandPorts) (s : State) : (startCommand c s).done = s.done := by
  rcases startCommand_cases c s with ⟨_, h⟩ | ⟨_, h | h⟩ <;> simp [h]

@[simp] theorem startCommand_keyValid (c : CommandPorts) (s : State) :
    (startCommand c s).keyValid = if c.cmdOp = 0b001#3 then false else s.keyValid := by
  rcases startCommand_cases c s with ⟨ho, h⟩ | ⟨ho, h | h⟩ <;> simp [h, ho]

@[simp] theorem startCommand_rks (c : CommandPorts) (s : State) :
    (startCommand c s).rks = if c.cmdOp = 0b001#3 then loadKey c.keyIn s.rks else s.rks := by
  rcases startCommand_cases c s with ⟨ho, h⟩ | ⟨ho, h | h⟩ <;> simp [h, ho]

theorem exec_of_accepts {e : EdgeInputs} {s : State} (h : acceptsCommand e s = true) :
    exec (decode e.cmd) s = .next (startCommand e.cmd (accept s)) := by
  obtain ⟨_, hv, ho, hc⟩ := acceptsCommand_iff.mp h
  rw [exec_decode, if_pos ⟨hv, ho⟩, present_of_accept _ hc, startCommand]

/-- A command that is not accepted, or none, writes `err_code` at most (R223, R228, R95). -/
theorem exec_of_not_accepts {e : EdgeInputs} {s : State} (hr : e.rst = false) (h : acceptsCommand e s = false) :
    exec (decode e.cmd) s = .next (reject (errAfter e.cmd s) s) := by
  rw [exec_decode]
  by_cases hp : e.cmd.cmdValid = true ∧ e.cmd.cmdOp ≠ 0b000#3
  · have hc : rejectCause s e.cmd.cmdOp ≠ .errNone := fun hc =>
      Bool.false_ne_true (h.symm.trans (acceptsCommand_iff.mpr ⟨hr, hp.1, hp.2, hc⟩))
    rw [if_pos hp, present_of_reject _ hc]
    simp [errAfter, hp]
  · have he : errAfter e.cmd s = s.errCode := if_neg (by simpa using hp)
    rw [if_neg hp, he]
    rfl

/-! ## Part (2) of an edge: what progress does to each register -/

theorem completesNext_of_idle {s : State} (h : s.phase = .idle) : completesNext s = false := by
  simp [completesNext, h]

theorem completesNext_of_kexp {s : State} (h : s.phase = .kexp) : completesNext s = decide (s.kidx.val = 43) := by
  simp [completesNext, h]

theorem completesNext_of_enc {s : State} (h : s.phase = .enc) : completesNext s = decide (s.rnd.val = 10) := by
  simp [completesNext, h]

theorem completesNext_of_dec {s : State} (h : s.phase = .dec) : completesNext s = decide (s.rnd.val = 0) := by
  simp [completesNext, h]

/-- ENCRYPT's stage is the last of its block at `rnd = 10`, and an earlier one below it (R231). -/
theorem encryptStage_cases (s acc : State) :
    (s.rnd.val ≠ 10 ∧ ∃ r k, encryptStage s acc = nextStage r k acc) ∨
    (s.rnd.val = 10 ∧ ∃ r, encryptStage s acc = finishBlock r acc) := by
  unfold encryptStage
  split
  · exact .inl ⟨by omega, _, _, rfl⟩
  · split
    · exact .inl ⟨by omega, _, _, rfl⟩
    · exact .inr ⟨by omega, _, rfl⟩

/-- DECRYPT's stage is the last of its block at `rnd = 0`, and an earlier one above it (R232). -/
theorem decryptStage_cases (s acc : State) :
    (s.rnd.val ≠ 0 ∧ ∃ r k, decryptStage s acc = nextStage r k acc) ∨
    (s.rnd.val = 0 ∧ ∃ r, decryptStage s acc = finishBlock r acc) := by
  unfold decryptStage
  split
  · exact .inl ⟨by omega, _, _, rfl⟩
  · split
    · exact .inl ⟨by omega, _, _, rfl⟩
    · exact .inr ⟨by omega, _, rfl⟩

/-- What part (2) of an edge can do to `acc`, the state after part (1), where `s` is the state before the edge. -/
inductive ProgressOutcome (s acc : State) : State → Prop where
  /-- Nothing is in progress. -/
  | idle (hp : s.phase = .idle) : ProgressOutcome s acc acc
  /-- One word of the key schedule is computed, and the last of them completes the expansion (R230). -/
  | keyWord (hp : s.phase = .kexp) (h : 4 ≤ s.kidx.val ∧ s.kidx.val < 44) :
    ProgressOutcome s acc { acc with
      rks := acc.rks.set s.kidx.val (nextWord s.rks s.kidx.val h)
      kidx := ⟨s.kidx.val + 1, by omega⟩
      phase := if s.kidx.val = 43 then .idle else acc.phase
      keyValid := if s.kidx.val = 43 then true else acc.keyValid
      done := if s.kidx.val = 43 then true else acc.done }
  /-- A stage of a block that is not its last (R231, R232). -/
  | stage (hp : s.phase = .enc ∨ s.phase = .dec) (hc : completesNext s = false) (r : Block) (k : Fin 11) :
    ProgressOutcome s acc (nextStage r k acc)
  /-- The last stage of a block (R231, R232). -/
  | lastStage (hp : s.phase = .enc ∨ s.phase = .dec) (hc : completesNext s = true) (r : Block) :
    ProgressOutcome s acc (finishBlock r acc)

theorem progress_outcome {s acc t : State} (h : progress s acc = .next t) : ProgressOutcome s acc t := by
  cases hp : s.phase with
  | idle =>
    rw [progress_of_idle acc hp] at h
    cases h
    exact .idle hp
  | kexp =>
    simp only [progress, hp] at h
    by_cases hr : 4 ≤ s.kidx.val ∧ s.kidx.val < 44
    · rw [keyExpandStage_of_range acc hr] at h
      cases h
      exact .keyWord hp hr
    · rw [keyExpandStage_of_not_range acc hr] at h
      cases h
  | enc =>
    simp only [progress, hp] at h
    cases h
    rcases encryptStage_cases s acc with ⟨hk, r, k, h⟩ | ⟨hk, r, h⟩
    · exact h ▸ .stage (.inl hp) (by simp [completesNext_of_enc hp, hk]) r k
    · exact h ▸ .lastStage (.inl hp) (by simp [completesNext_of_enc hp, hk]) r
  | dec =>
    simp only [progress, hp] at h
    cases h
    rcases decryptStage_cases s acc with ⟨hk, r, k, h⟩ | ⟨hk, r, h⟩
    · exact h ▸ .stage (.inr hp) (by simp [completesNext_of_dec hp, hk]) r k
    · exact h ▸ .lastStage (.inr hp) (by simp [completesNext_of_dec hp, hk]) r

/-- Progress does not write `err_code` (R233). -/
theorem progress_errCode {s acc t : State} (h : progress s acc = .next t) : t.errCode = acc.errCode := by
  cases progress_outcome h <;> rfl

/-- Progress sets `done` at a completion edge and writes it nowhere else (R41). -/
theorem progress_done {s acc t : State} (h : progress s acc = .next t) :
    t.done = if completesNext s then true else acc.done := by
  cases progress_outcome h with
  | idle hp => simp [completesNext_of_idle hp]
  | keyWord hp => simp [completesNext_of_kexp hp]
  | stage _ hc => simp [hc]
  | lastStage _ hc => simp [hc]

/-- Progress sets `key_valid` where it completes a key expansion and writes it nowhere else (R40). -/
theorem progress_keyValid {s acc t : State} (h : progress s acc = .next t) :
    t.keyValid = if decide (s.phase = .kexp) && completesNext s then true else acc.keyValid := by
  cases progress_outcome h with
  | idle hp => simp [hp]
  | keyWord hp => simp [hp, completesNext_of_kexp hp]
  | stage hp => rcases hp with hp | hp <;> simp [hp]
  | lastStage hp => rcases hp with hp | hp <;> simp [hp]

/-- Progress writes no word of the store but the word `kidx` of a key expansion (R67). -/
theorem progress_rks_get {s acc t : State} (h : progress s acc = .next t) (j : Fin 44)
    (hj : ¬(s.phase = .kexp ∧ j.val = s.kidx.val)) : t.rks[j] = acc.rks[j] := by
  cases progress_outcome h with
  | keyWord hp =>
    have hne : s.kidx.val ≠ j.val := fun he => hj ⟨hp, he.symm⟩
    simp [Vector.getElem_set_ne, hne]
  | idle | stage | lastStage => rfl

/-! ## What an edge can do, said once -/

/-- Everything an edge that answers `t` can have done to `s`. -/
inductive EdgeOutcome (e : EdgeInputs) (s t : State) : Prop where
  /-- A reset edge (R290). -/
  | reset (hr : e.rst = true) (ht : t = resetEdge s)
  /-- No command is accepted: `err_code` takes the command's outcome, and the operation in progress advances. -/
  | advance (hr : e.rst = false) (ha : acceptsCommand e s = false)
      (ht : progress s (reject (errAfter e.cmd s) s) = .next t)
  /-- A command is accepted, and nothing was in progress (R222, R229). -/
  | accepted (ha : acceptsCommand e s = true) (ht : t = startCommand e.cmd (accept s))

theorem edge_outcome {e : EdgeInputs} {s t : State} (h : edge e s = .next t) : EdgeOutcome e s t := by
  rcases edge_cases h with ⟨hr, ht⟩ | ⟨hr, acc, hx, hp⟩
  · exact .reset hr ht
  · cases ha : acceptsCommand e s with
    | false =>
      rw [exec_of_not_accepts hr ha] at hx
      cases hx
      exact .advance hr ha hp
    | true =>
      rw [exec_of_accepts ha] at hx
      rw [progress_of_idle acc (phase_idle_of_accepts ha)] at hp
      cases hx
      cases hp
      exact .accepted ha rfl

/-! ## The key schedule, word by word -/

/-- Beyond the key's initial words, `loadKey` writes nothing (R224). -/
theorem loadKey_get_of_ge (key : Block) (rks : RoundKeyStore) (j : Nat) (h : j < 44) (hj : 4 ≤ j) :
    (loadKey key rks)[j] = rks[j] := by
  rw [loadKey_get, if_neg, if_neg, if_neg, if_neg] <;> omega

/-- The key's initial words do not depend on the store they are loaded into (R224). -/
theorem loadKey_get_congr (key : Block) (rks rks' : RoundKeyStore) (j : Nat) (h : j < 44) (hj : j < 4) :
    (loadKey key rks)[j] = (loadKey key rks')[j] := by
  rw [loadKey_get, loadKey_get]
  interval_cases j <;> rfl

/-- A word computed after `n` steps of the expansion keeps its value through every later step. -/
theorem expandKeyTo_get_of_le (key : Block) {n m j : Nat} (hnm : n ≤ m) (hm : m ≤ 40) (hj : j < n + 4) :
    (expandKeyTo key m)[j] = (expandKeyTo key n)[j] := by
  induction m, hnm using Nat.le_induction with
  | base => rfl
  | succ m hnm ih => rw [expandKeyTo_succ_get key m j (by omega) (by omega), ih (by omega)]

/-- The first four words of the schedule are the key's (R170). -/
theorem expandKey_get_initial (key : Block) (j : Nat) (hj : j < 4) :
    (expandKey key)[j] = (loadKey key (Vector.replicate 44 0))[j] :=
  expandKeyTo_get_of_le key (Nat.zero_le 40) (Nat.le_refl 40) hj

/-- The recurrence, on the finished schedule (R174). -/
theorem expandKey_get_next (key : Block) (i : Nat) (h : 4 ≤ i ∧ i < 44) :
    (expandKey key)[i] = nextWord (expandKey key) i h := by
  obtain ⟨n, rfl⟩ : ∃ n, i = n + 4 := ⟨i - 4, by omega⟩
  have earlier (j : Nat) (hj : j < n + 4) : (expandKeyTo key n)[j] = (expandKey key)[j] :=
    (expandKeyTo_get_of_le key (by omega) (Nat.le_refl 40) hj).symm
  calc (expandKey key)[n + 4]
      = (expandKeyTo key (n + 1))[n + 4] := expandKeyTo_get_of_le key (by omega) (Nat.le_refl 40) (by omega)
    _ = nextWord (expandKeyTo key n) (n + 4) h := by
      rw [getElem_congr_coll (expandKeyTo_succ key n h.2), Vector.getElem_set_self]
    _ = nextWord (expandKey key) (n + 4) h :=
      nextWord_congr h (earlier (n + 4 - 4) (by omega)) (earlier (n + 4 - 1) (by omega))

/-- Where the words below `i` are those of the schedule, writing the next word extends them by word `i`. -/
theorem set_nextWord_get_of_lt {rks : RoundKeyStore} {key : Block} {i : Nat} (h : 4 ≤ i ∧ i < 44)
    (hw : ∀ j : Fin 44, j.val < i → rks[j] = (expandKey key)[j]) (j : Fin 44) (hj : j.val < i + 1) :
    (rks.set i (nextWord rks i h))[j] = (expandKey key)[j] := by
  rcases Nat.lt_succ_iff_lt_or_eq.mp hj with hlt | heq
  · have hne : i ≠ j.val := by omega
    simpa [Vector.getElem_set_ne, hne] using hw j hlt
  · subst heq
    have hnext : nextWord rks j.val h = nextWord (expandKey key) j.val h :=
      nextWord_congr h (hw ⟨j.val - 4, by omega⟩ (by simp; omega)) (hw ⟨j.val - 1, by omega⟩ (by simp; omega))
    simp [hnext, expandKey_get_next key j.val h]

/-! ## The invariants of R49 -/

/-- What the invariants ask of an idle engine. -/
theorem inv_of_idle {key : Block} {s : State} (hp : s.phase = .idle)
    (hrks : s.keyValid = true → s.rks = expandKey key) : s.Inv key where
  schedule hk := ⟨by simp [hp], hrks hk⟩
  expanding h := by simp [hp] at h
  encrypting h := by simp [hp] at h
  decrypting h := by simp [hp] at h
  busyNotDone h := absurd hp h

/-- What the invariants ask of an engine that expands a key. -/
theorem inv_of_kexp {key : Block} {s : State} (hp : s.phase = .kexp) (hk : s.keyValid = false) (hd : s.done = false)
    (hlo : 4 ≤ s.kidx.val) (hhi : s.kidx.val ≤ 43)
    (hw : ∀ j : Fin 44, j.val < s.kidx.val → s.rks[j] = (expandKey key)[j]) : s.Inv key where
  schedule h := by simp [hk] at h
  expanding _ := ⟨hk, hlo, hhi, hw⟩
  encrypting h := by simp [hp] at h
  decrypting h := by simp [hp] at h
  busyNotDone _ := hd

/-- What the invariants ask of an engine that works on a block. -/
theorem inv_of_block {key : Block} {s : State} (hp : s.phase ≠ .kexp) (hk : s.keyValid = true) (hd : s.done = false)
    (hrks : s.rks = expandKey key) : s.Inv key where
  schedule _ := ⟨hp, hrks⟩
  expanding h := absurd h hp
  encrypting _ := hk
  decrypting _ := hk
  busyNotDone _ := hd

/-- The invariants speak of neither `err_code` nor the listed inputs. -/
theorem inv_reject {key : Block} {s : State} (code : ErrCode) (h : s.Inv key) : (reject code s).Inv key :=
  ⟨h.schedule, h.expanding, h.encrypting, h.decrypting, h.busyNotDone⟩

theorem inv_dropInput {key : Block} {s : State} (h : s.Inv key) : s.dropInput.Inv key :=
  ⟨h.schedule, h.expanding, h.encrypting, h.decrypting, h.busyNotDone⟩

/-- Progress keeps the invariants, whatever is written to `err_code` at its edge. -/
theorem progress_keeps_inv {key : Block} {s t : State} {code : ErrCode} (hs : s.Inv key)
    (h : progress s (reject code s) = .next t) : t.Inv key := by
  cases progress_outcome h with
  | idle => exact inv_reject code hs
  | keyWord hp hr =>
    obtain ⟨hk, -, -, hw⟩ := hs.expanding hp
    have hd := hs.busyNotDone (by simp [hp])
    have hw' := set_nextWord_get_of_lt hr hw
    by_cases hl : s.kidx.val = 43
    · exact inv_of_idle (if_pos hl) fun _ => Vector.ext fun j hj => hw' ⟨j, hj⟩ (by simp; omega)
    · exact inv_of_kexp ((if_neg hl).trans hp) ((if_neg hl).trans hk) ((if_neg hl).trans hd)
        (by simp; omega) (by simp; omega) hw'
  | stage => exact ⟨hs.schedule, hs.expanding, hs.encrypting, hs.decrypting, hs.busyNotDone⟩
  | lastStage => exact inv_of_idle rfl fun hk => (hs.schedule hk).2

/-- An edge that accepts KEY_EXPAND makes its key the most recent one, and no other edge changes it. -/
theorem latestKey_eq (key : Block) (e : EdgeInputs) (s : State) :
    latestKey key e s = if acceptsCommand e s = true ∧ e.cmd.cmdOp = 0b001#3 then e.cmd.keyIn else key := by
  cases ha : acceptsCommand e s with
  | false => simp [latestKey, ha]
  | true =>
    obtain ⟨_, hv, _, _⟩ := acceptsCommand_iff.mp ha
    rcases cmdOp_of_accepts ha with ho | ho | ho <;> simp [latestKey, ha, decode, hv, ho]

@[simp] theorem latestKey_dropInput (key : Block) (e : EdgeInputs) (s : State) :
    latestKey key e s.dropInput = latestKey key e s := rfl

/-- An accepting edge keeps the invariants, for the key it leaves as the most recent one (R229). -/
theorem accepted_keeps_inv {key : Block} {e : EdgeInputs} {s : State} (hs : s.Inv key)
    (ha : acceptsCommand e s = true) : (startCommand e.cmd (accept s)).Inv (latestKey key e s) := by
  rcases startCommand_cases e.cmd (accept s) with ⟨ho, h⟩ | ⟨ho, h⟩
  · rw [h, latestKey_eq, if_pos ⟨ha, ho⟩]
    refine inv_of_kexp rfl rfl rfl (by simp) (by simp) fun j hj => ?_
    have hj4 : j.val < 4 := by simpa using hj
    exact (loadKey_get_congr e.cmd.keyIn s.rks (Vector.replicate 44 0) j.val j.isLt hj4).trans
      (expandKey_get_initial e.cmd.keyIn j.val hj4).symm
  · have hk := keyValid_of_accepts ha ho
    have hrks := (hs.schedule hk).2
    rw [latestKey_eq, if_neg fun hkey => ho hkey.2]
    rcases h with h | h <;> rw [h]
    · exact inv_of_block (by simp) hk rfl hrks
    · exact inv_of_block (by simp) hk rfl hrks

theorem edge_keeps_inv {key : Block} {e : EdgeInputs} {s t : State} (hs : s.Inv key) (h : edge e s = .next t) :
    t.Inv (latestKey key e s) := by
  cases edge_outcome h with
  | reset hr ht => exact ht ▸ inv_of_idle rfl fun hk => by simp at hk
  | advance hr ha ht =>
    have hkey : latestKey key e s = key := by simp [latestKey, ha]
    rw [hkey]
    exact progress_keeps_inv hs ht
  | accepted ha ht => exact ht ▸ accepted_keeps_inv hs ha

/-- Under the invariants an edge always answers a next state: the key index never leaves its range (R67, R235). -/
theorem edge_next_of_inv {key : Block} {s : State} (hs : s.Inv key) (e : EdgeInputs) : ∃ t, edge e s = .next t := by
  have hrange (hp : s.phase = .kexp) : 4 ≤ s.kidx.val ∧ s.kidx.val < 44 := by
    obtain ⟨-, hlo, hhi, -⟩ := hs.expanding hp
    omega
  cases hr : e.rst with
  | true => exact ⟨_, edge_of_reset s hr⟩
  | false =>
    cases ha : acceptsCommand e s with
    | false =>
      rw [edge_of_exec hr (exec_of_not_accepts hr ha)]
      exact progress_next s _ hrange
    | true =>
      rw [edge_of_exec hr (exec_of_accepts ha)]
      exact progress_next s _ hrange

theorem run_succ_of_step {M : Host.Core} (n : Nat) {s t : M.State} (h : M.step s = .next t) :
    M.run (n + 1) s = M.run n t := by
  simp [Host.Core.run, h]

/-! ## The obligations -/

/-- Settles O35: the step is an edge, and every kind of edge keeps the invariants. -/
theorem stepKeepsTheReachableStateInvariant : Obligations.StepKeepsTheReachableStateInvariant := by
  intro key s t hs h
  rw [← latestKey_dropInput]
  exact edge_keeps_inv (inv_dropInput hs) h

/-- Settles O37, by induction on the number of steps: under the invariants a step answers, and it keeps them. -/
theorem runsFromTheInvariantNeverStop : Obligations.RunsFromTheInvariantNeverStop := by
  intro n
  induction n with
  | zero => exact fun key s hs => ⟨s, key, rfl, hs⟩
  | succ n ih =>
    intro key s hs
    obtain ⟨m, hm⟩ : ∃ m, step s = .next m := edge_next_of_inv (inv_dropInput hs) s.nextInputs
    obtain ⟨t, key', ht, hinv⟩ := ih _ m (stepKeepsTheReachableStateInvariant key s m hs hm)
    exact ⟨t, key', (run_succ_of_step (M := Sys2Proof.core) n hm).trans ht, hinv⟩

/-- Settles O25: progress writes the word `kidx` alone, and an accepted command the key's words alone. -/
theorem keyStoreChangesOnlyByKeyExpand : Obligations.KeyStoreChangesOnlyByKeyExpand := by
  intro e s t h hr j hj
  cases edge_outcome h with
  | reset hr' => simp [hr] at hr'
  | advance _ _ ht =>
    by_contra hno
    exact hj (progress_rks_get ht j fun hk => hno (.inl hk))
  | accepted ha ht =>
    obtain ⟨_, hv, _, _⟩ := acceptsCommand_iff.mp ha
    subst ht
    by_cases ho : e.cmd.cmdOp = 0b001#3
    · have hj4 : j.val < 4 := by
        by_contra hge
        simp [ho, loadKey_get_of_ge _ _ j.val j.isLt (not_lt.mp hge)] at hj
      exact .inr ⟨phase_idle_of_accepts ha, hj4, hv, ho⟩
    · simp [ho] at hj

/-- Settles O26: an accepted KEY_EXPAND clears `key_valid`, and its last progress edge sets it. -/
theorem keyValidRule : Obligations.KeyValidRule := by
  intro e s t h
  cases edge_outcome h with
  | reset hr ht => simp [hr, ht]
  | advance hr ha ht => simp [hr, ha, progress_keyValid ht]
  | accepted ha ht => simp [rst_of_accepts ha, ha, phase_idle_of_accepts ha, ht]

/-- Settles O27: a completion edge sets `done`, an accepting edge clears it, and no edge is both. -/
theorem doneRule : Obligations.DoneRule := by
  intro e s t h
  cases edge_outcome h with
  | reset hr ht => simp [hr, ht]
  | advance hr ha ht => simp [hr, ha, progress_done ht]
  | accepted ha ht => simp [rst_of_accepts ha, ha, completesNext_of_idle (phase_idle_of_accepts ha), ht]

/-- Settles O28: part (1) writes `err_code`, and progress does not. -/
theorem errCodeRule : Obligations.ErrCodeRule := by
  intro e s t h
  cases edge_outcome h with
  | reset hr ht => simp [hr, ht]
  | advance hr ha ht => simp [hr, progress_errCode ht, errAfter]
  | accepted ha ht =>
    obtain ⟨hr, hv, ho, hc⟩ := acceptsCommand_iff.mp ha
    simp [ht, hr, hv, ho, hc]

/-- Settles O8: `resetEdge` writes its reset value to every register but `st` and RKS. -/
theorem resetEdgeGivesResetValues : Obligations.ResetEdgeGivesResetValues := by
  intro c s
  exact ⟨resetEdge s, edge_of_reset s rfl, rfl, rfl, rfl, rfl, rfl, rfl, rfl, rfl, rfl, rfl, rfl, rfl, rfl, rfl⟩

/-- Settles O23: a busy engine's edge is its progress, which has no word to compute there. -/
theorem keyIndexOutsideItsRangeFaults : Obligations.KeyIndexOutsideItsRangeFaults := by
  intro s c hp hk
  obtain ⟨code, he⟩ := edge_of_busy c (s := s) (by simp [hp])
  rw [he, progress, hp]
  exact keyExpandStage_of_not_range _ (by omega)

/-- Distinct error values have distinct codes (R42, R270). -/
theorem errCode_bits_inj {a b : ErrCode} : a.bits = b.bits ↔ a = b := by
  cases a <;> cases b <;> decide

/-- Settles O29: `busy` tests the phase, and distinct error values have distinct codes. -/
theorem busyIsPhaseNotIdle : Obligations.BusyIsPhaseNotIdle := by
  intro s
  have hbusy : s.outputs.busy = true ↔ s.phase ≠ .idle := decide_eq_true_iff
  exact ⟨hbusy, rfl, rfl, rfl, errCode_bits_inj (b := .errNone), errCode_bits_inj (b := .errIllegal),
    errCode_bits_inj (b := .errBusy), errCode_bits_inj (b := .errNoKey)⟩

/-- Settles O36: the state after reset is idle without a key schedule. -/
theorem resetMeetsTheInvariant : Obligations.ResetMeetsTheInvariant := by
  intro key
  exact inv_of_idle rfl fun hk => by simp [State.reset] at hk

end Sys2Proof.Machine

/-! # Proof of the statement about `data_out` (spec/20_memory.md) -/

namespace Sys2Proof.Machine

/-- The edges that complete a block are ENCRYPT's at `rnd = 10` and DECRYPT's at `rnd = 0` (R231, R232). -/
theorem completesBlock_iff {s : State} :
    ((s.phase = .enc ∨ s.phase = .dec) ∧ completesNext s = true) ↔
      (s.phase = .enc ∧ s.rnd.val = 10) ∨ (s.phase = .dec ∧ s.rnd.val = 0) := by
  cases hp : s.phase <;> simp [completesNext, hp]

/-- Progress that does not complete a block does not write `data_out` (R73). -/
theorem progress_dataOut_of_not_completesBlock {s acc t : State} (h : progress s acc = .next t)
    (hn : ¬((s.phase = .enc ∨ s.phase = .dec) ∧ completesNext s = true)) : t.dataOut = acc.dataOut := by
  cases progress_outcome h with
  | idle | keyWord | stage => rfl
  | lastStage hp hc => exact absurd ⟨hp, hc⟩ hn

/-- Progress that completes a block writes its result to `st` and `data_out` and ends idle (R231, R232). -/
theorem progress_eq_finishBlock {s acc t : State} (h : progress s acc = .next t)
    (hb : s.phase = .enc ∨ s.phase = .dec) (hc : completesNext s = true) : ∃ r, t = finishBlock r acc := by
  cases progress_outcome h with
  | idle hp => simp [hp] at hb
  | keyWord hp => simp [hp] at hb
  | stage _ hc' => simp [hc] at hc'
  | lastStage _ _ r => exact ⟨r, rfl⟩

@[simp] theorem startCommand_dataOut (c : CommandPorts) (s : State) : (startCommand c s).dataOut = s.dataOut := by
  rcases startCommand_cases c s with ⟨_, h⟩ | ⟨_, h | h⟩ <;> simp [h]

/-- Settles O24: part (1) writes no `data_out`, and progress writes it where it completes a block. -/
theorem dataOutChangesOnlyAtCompletion : Obligations.DataOutChangesOnlyAtCompletion := by
  intro e s t h
  rw [← completesBlock_iff]
  cases edge_outcome h with
  | reset hr => exact ⟨fun _ => .inl hr, fun hr' => by simp [hr] at hr'⟩
  | advance _ _ ht =>
    constructor
    · intro hne
      by_contra hno
      have hkeep := progress_dataOut_of_not_completesBlock ht fun hb => hno (.inr hb)
      exact hne (by simpa using hkeep)
    · rintro - ⟨hb, hc⟩
      obtain ⟨r, rfl⟩ := progress_eq_finishBlock ht hb hc
      exact ⟨rfl, rfl⟩
  | accepted ha ht =>
    constructor
    · intro hne
      simp [ht] at hne
    · rintro - ⟨hb, -⟩
      simp [phase_idle_of_accepts ha] at hb

end Sys2Proof.Machine

/-! # Proofs of the statements about the encoding (spec/30_encoding.md)

`decode` and `encode` undo each other on well-formed instructions. A program's edge is read back as `encode` of the
command it presents, and an edge depends on its ports through `decode` alone; the statements about the encoded edge
and about the ports a command ignores follow from that. -/

namespace Sys2Proof

/-- The command word carries its two fields (R90). -/
@[simp] theorem ofWord_word (p : CommandPorts) (k d : Block) :
    CommandPorts.ofWord p.word k d = ⟨p.cmdValid, p.cmdOp, k, d⟩ := by
  have hvalid : p.word.getLsbD 3 = p.cmdValid := by
    rw [CommandPorts.word, BitVec.getLsbD_append]
    simp
  have hop : p.word.extractLsb' 0 3 = p.cmdOp := Machine.extractLsb'_last _ _
  rw [CommandPorts.ofWord, hvalid, hop]

/-- The decoder on a command word reads the word's two fields (R90, R93). -/
theorem decode_ofWord_append (v : Bool) (op : BitVec 3) (k d : Block) :
    decode (.ofWord (BitVec.ofBool v ++ op) k d) = decode ⟨v, op, k, d⟩ :=
  congrArg decode (ofWord_word ⟨v, op, k, d⟩ k d)

@[simp] theorem wellFormed_reserved (op : BitVec 3) : (Instr.reserved op).wellFormed = true ↔ 4 ≤ op.toNat :=
  decide_eq_true_iff

/-- The decoder reads a well-formed instruction from its own fields and operand ports (R91, R93). -/
theorem decode_encode (u : CommandPorts) {i : Instr} (h : i.wellFormed = true) : decode (encode u i) = i := by
  cases i with
  | nop => exact decode_nop _ _
  | keyExpand key => exact decode_keyExpand _ _
  | encrypt data => exact decode_encrypt _ _
  | decrypt data => exact decode_decrypt _ _
  | reserved op => exact decode_reserved op _ _ ((wellFormed_reserved op).mp h)
  | noCommand op => exact decode_noCommand op _ _

/-- Every value of the ports presents a well-formed instruction (R93, R97). -/
theorem exists_encode (p : CommandPorts) : ∃ i : Instr, i.wellFormed = true ∧ encode p i = p := by
  rcases p with ⟨v, op, k, d⟩
  cases v with
  | false => exact ⟨.noCommand op, rfl, rfl⟩
  | true =>
    rcases cmdOp_cases op with rfl | rfl | rfl | rfl | rfl | rfl | rfl | rfl
    · exact ⟨.nop, rfl, rfl⟩
    · exact ⟨.keyExpand k, rfl, rfl⟩
    · exact ⟨.encrypt d, rfl, rfl⟩
    · exact ⟨.decrypt d, rfl, rfl⟩
    all_goals exact ⟨.reserved _, rfl, rfl⟩

theorem wellFormed_decode (p : CommandPorts) : (decode p).wellFormed = true := by
  obtain ⟨i, hi, hp⟩ := exists_encode p
  rwa [← hp, decode_encode p hi]

theorem encode_decode (p : CommandPorts) : encode p (decode p) = p := by
  obtain ⟨i, hi, hp⟩ := exists_encode p
  have hdecode : decode p = i := (congrArg decode hp).symm.trans (decode_encode p hi)
  rw [hdecode, hp]

/-- The command word of an instruction does not depend on the ports the instruction ignores (R91). -/
theorem word_encode_decode (u p : CommandPorts) : (encode u (decode p)).word = p.word :=
  calc (encode u (decode p)).word = (encode p (decode p)).word := rfl
    _ = p.word := by rw [encode_decode]

/-- An instruction's word and operand are read back as its encoding over the ports `u` (R100). -/
theorem decodeEdge_encode (u p : CommandPorts) (rst : Bool) {i : Instr} (h : i.wellFormed = true) :
    decodeEdge u ⟨(encode p i).word, rst, i.operand⟩ = .ok ⟨rst, encode u i⟩ := by
  cases i with
  | reserved op =>
    have hd := decode_reserved op u.keyIn u.dataIn ((wellFormed_reserved op).mp h)
    simp [decodeEdge, encode, Instr.cmdValid, Instr.cmdOp, Instr.operand, hd]
  | _ => simp [decodeEdge, encode, Instr.cmdValid, Instr.cmdOp, Instr.operand]

/-- Encoding an edge keeps its command, and drops what the ports the command ignores held (R100). -/
theorem decodeEdge_encodeEdge (u : CommandPorts) (e : EdgeInputs) :
    decodeEdge u (encodeEdge e) = .ok ⟨e.rst, encode u (decode e.cmd)⟩ := by
  have h := decodeEdge_encode u e.cmd e.rst (wellFormed_decode e.cmd)
  rwa [encode_decode] at h

/-- Settles O1, by the rows of the opcode map. -/
theorem decodeOfEncodeIsIdentity : Obligations.DecodeOfEncodeIsIdentity :=
  fun u _ h => decode_encode u h

/-- Settles O2: the ports are the encoding of some well-formed instruction, which is the one they decode to. -/
theorem encodeOfDecodeIsIdentity : Obligations.EncodeOfDecodeIsIdentity :=
  fun p => ⟨wellFormed_decode p, encode_decode p, ofWord_word p p.keyIn p.dataIn⟩

/-- Settles O3: the word of each row has that row's fields. -/
theorem decodeFollowsOpcodeMap : Obligations.DecodeFollowsOpcodeMap := by
  intro k d
  have hreserved (op : BitVec 3) (h : 4 ≤ op.toNat) : decode (.ofWord (BitVec.ofBool true ++ op) k d) = .reserved op :=
    (decode_ofWord_append true op k d).trans (decode_reserved op k d h)
  refine ⟨(decode_ofWord_append true 0b000#3 k d).trans (decode_nop k d),
    (decode_ofWord_append true 0b001#3 k d).trans (decode_keyExpand k d),
    (decode_ofWord_append true 0b010#3 k d).trans (decode_encrypt k d),
    (decode_ofWord_append true 0b011#3 k d).trans (decode_decrypt k d),
    hreserved 0b100#3 (by decide), hreserved 0b101#3 (by decide),
    hreserved 0b110#3 (by decide), hreserved 0b111#3 (by decide),
    fun op => (decode_ofWord_append false op k d).trans (decode_noCommand op k d), ?_, ?_⟩
  · decide
  · decide

end Sys2Proof

namespace Sys2Proof.Machine

/-- An edge depends on its command ports through the instruction they decode to (R220). -/
theorem edge_congr {rst : Bool} {c c' : CommandPorts} (h : decode c = decode c') (s : State) :
    edge ⟨rst, c⟩ s = edge ⟨rst, c'⟩ s := by
  rw [edge, edge, h]

/-- With no listed inputs there is nothing to take off the list. -/
theorem dropInput_of_inputs_nil {s : State} (h : s.inputs = []) : s.dropInput = s := by
  rw [State.dropInput, h, List.tail_nil, ← h]

theorem nextInputs_of_inputs_nil {s : State} (h : s.inputs = []) : s.nextInputs = idleEdge zeroPorts := by
  rw [State.nextInputs, h]

/-- Settles O4: an ignored port is not in the decoded instruction. -/
theorem ignoredOperandPortsHaveNoEffect : Obligations.IgnoredOperandPortsHaveNoEffect := by
  intro s k k' d d'
  have hreserved (op : BitVec 3) (h : 4 ≤ op.toNat) : decode ⟨true, op, k, d⟩ = decode ⟨true, op, k', d'⟩ := by
    rw [decode_reserved op k d h, decode_reserved op k' d' h]
  exact ⟨decode_keyExpand k d, decode_encrypt k d, decode_decrypt k d,
    edge_congr (by simp) s, edge_congr (by simp) s, edge_congr (by simp) s, edge_congr (by simp) s,
    fun op h => edge_congr (hreserved op h) s⟩

/-- Settles O5: the edge read back presents the encoding of the same instruction. -/
theorem encodedEdgeKeepsItsCommand : Obligations.EncodedEdgeKeepsItsCommand := by
  intro u e
  have hdecode : decode (encode u (decode e.cmd)) = decode e.cmd := decode_encode u (wellFormed_decode e.cmd)
  exact ⟨_, decodeEdge_encodeEdge u e, rfl, word_encode_decode u e.cmd, hdecode, fun s _ => edge_congr hdecode s⟩

/-- Settles O7: the edge after the listed ones is idle, and takes nothing off the list. -/
theorem noListedInputsMeansNoCommand : Obligations.NoListedInputsMeansNoCommand := by
  intro s h
  rw [step_eq, nextInputs_of_inputs_nil h, dropInput_of_inputs_nil h, idleEdge_progress]

/-- Settles O11: part (1) of such an edge is the identity, and an idle engine's progress is too. -/
theorem noCommandWhateverThePortsHold : Obligations.NoCommandWhateverThePortsHold := by
  intro s op k d
  have hedge : edge ⟨false, ⟨false, op, k, d⟩⟩ s = progress s s := idleEdge_progress ⟨false, op, k, d⟩ s
  exact ⟨rfl, hedge, fun hidle => hedge.trans (progress_of_idle s hidle)⟩

end Sys2Proof.Machine

/-! # Proofs of the statements about GF(2^8) arithmetic (spec/40_gf_arith.md)

A map of bytes that respects XOR and `xtime` respects the product in its left operand, and the product with a fixed
byte is such a map. With 0x01 neutral on the left, that gives commutativity, associativity and both distributive laws.
Squaring is then a field map whose eighth iterate is the identity, so the power `a^254` of R136 times `a` is an
idempotent that fixes `a`; the only idempotents are 0x00 and 0x01, which gives the inverses of R115. -/

namespace Sys2Proof.Machine

/-- One turn of the loop of R112: bit `k` of `b` adds `xtime` applied `k` times to `a`. -/
def addTerm (a b acc : Byte) (k : Nat) : Byte := if b.getLsbD k then acc ^^^ xtimeN k a else acc

/-- Where the running operand is `xtime` applied to `a` as often as bits are done, the loop adds the terms of the bits
that are left. -/
theorem gmulLoop_eq_foldl (a b : Byte) {n : Nat} (hn : n ≤ 8) (acc : Byte) :
    gmulLoop b n (xtimeN (8 - n) a) acc = (List.range' (8 - n) n).foldl (addTerm a b) acc := by
  induction n generalizing acc with
  | zero => rfl
  | succ n ih =>
    have hk : 8 - (n + 1) = 7 - n := by omega
    have hnext : 8 - n = 7 - n + 1 := by omega
    have hturn := ih (by omega) (addTerm a b acc (7 - n))
    rw [hnext, xtimeN_succ] at hturn
    rw [hk, List.range'_succ, List.foldl_cons, ← hturn]
    rfl

theorem gmul_eq_foldl (a b : Byte) : gmul a b = (List.range 8).foldl (addTerm a b) 0 :=
  gmulLoop_eq_foldl a b le_rfl 0

/-- A map of bytes that respects field addition and multiply-by-x (R111, R113). -/
structure XtimeLinear (f : Byte → Byte) : Prop where
  map_xor : ∀ a b, f (a ^^^ b) = f a ^^^ f b
  map_xtime : ∀ a, f (xtime a) = xtime (f a)

theorem XtimeLinear.map_zero {f : Byte → Byte} (hf : XtimeLinear f) : f 0 = 0 := by
  simpa using hf.map_xor 0 0

theorem XtimeLinear.map_gmulLoop {f : Byte → Byte} (hf : XtimeLinear f) (b : Byte) (n : Nat) (t acc : Byte) :
    f (gmulLoop b n t acc) = gmulLoop b n (f t) (f acc) := by
  induction n generalizing t acc with
  | zero => rfl
  | succ n ih => rw [gmulLoop, gmulLoop, ih, hf.map_xtime, apply_ite f, hf.map_xor]

theorem XtimeLinear.map_gmul {f : Byte → Byte} (hf : XtimeLinear f) (a b : Byte) : f (gmul a b) = gmul (f a) b := by
  rw [gmul, hf.map_gmulLoop, hf.map_zero, gmul]

theorem xtimeLinear_xtime : XtimeLinear xtime := ⟨xtime_xor, fun _ => rfl⟩

@[simp] theorem gmul_xtime_left (a b : Byte) : gmul (xtime a) b = xtime (gmul a b) :=
  (xtimeLinear_xtime.map_gmul a b).symm

@[simp] theorem gmul_xor_left (a b c : Byte) : gmul (a ^^^ b) c = gmul a c ^^^ gmul b c :=
  gmulLoop_xor c 8 a b 0 0

theorem xtimeLinear_gmul (b : Byte) : XtimeLinear (gmul · b) :=
  ⟨fun a a' => gmul_xor_left a a' b, fun a => gmul_xtime_left a b⟩

/-- Below the reduction, applying `xtime` to 0x01 moves its one bit. -/
theorem xtimeN_one : ∀ k < 8, xtimeN k 0x01#8 = BitVec.twoPow 8 k := by decide

/-- On 0x01 a turn of the loop copies its bit of `b`. -/
theorem addTerm_one_getLsbD (b acc : Byte) {i : Nat} (hi : i < 8) (k : Nat) :
    (addTerm 0x01#8 b acc i).getLsbD k = (acc.getLsbD k ^^ (decide (i = k) && b.getLsbD k)) := by
  rw [addTerm, xtimeN_one i hi]
  by_cases hik : i = k
  · subst hik
    cases b.getLsbD i <;> simp [hi]
  · split <;> simp [hik, BitVec.getLsbD_twoPow]

/-- On 0x01 the turns of the loop copy the bits of `b` they are for. -/
theorem foldl_addTerm_one_getLsbD (b : Byte) {l : List Nat} (hl : l.Nodup) (h8 : ∀ i ∈ l, i < 8) (acc : Byte)
    (k : Nat) :
    (l.foldl (addTerm 0x01#8 b) acc).getLsbD k = (acc.getLsbD k ^^ (decide (k ∈ l) && b.getLsbD k)) := by
  induction l generalizing acc with
  | nil => simp
  | cons i l ih =>
    obtain ⟨hil, hl⟩ := List.nodup_cons.mp hl
    obtain ⟨hi, h8⟩ := List.forall_mem_cons.mp h8
    rw [List.foldl_cons, ih hl h8, addTerm_one_getLsbD b acc hi]
    by_cases hik : i = k
    · simp [← hik, hil]
    · simp [hik, Ne.symm hik]

@[simp] theorem gmul_one_left (b : Byte) : gmul 0x01#8 b = b := by
  rw [gmul_eq_foldl]
  refine byte_bit_ext fun k hk => ?_
  rw [foldl_addTerm_one_getLsbD b List.nodup_range (fun _ => List.mem_range.mp)]
  simp [hk]

theorem gmul_comm (a b : Byte) : gmul a b = gmul b a :=
  calc gmul a b = gmul (gmul 0x01#8 a) b := by rw [gmul_one_left]
    _ = gmul (gmul 0x01#8 b) a := (xtimeLinear_gmul b).map_gmul 0x01#8 a
    _ = gmul b a := by rw [gmul_one_left]

theorem gmul_assoc (a b c : Byte) : gmul (gmul a b) c = gmul a (gmul b c) :=
  calc gmul (gmul a b) c = gmul (gmul b a) c := by rw [gmul_comm a b]
    _ = gmul (gmul b c) a := (xtimeLinear_gmul c).map_gmul b a
    _ = gmul a (gmul b c) := gmul_comm _ a

theorem gmul_xor_right (a b c : Byte) : gmul a (b ^^^ c) = gmul a b ^^^ gmul a c := by
  rw [gmul_comm a, gmul_xor_left, gmul_comm b, gmul_comm c]

/-- The square of a byte in GF(2^8). -/
def gfSquare (a : Byte) : Byte := gmul a a

theorem gfSquare_xor (a b : Byte) : gfSquare (a ^^^ b) = gfSquare a ^^^ gfSquare b :=
  calc gmul (a ^^^ b) (a ^^^ b) = gmul a a ^^^ gmul b a ^^^ (gmul a b ^^^ gmul b b) := by
        rw [gmul_xor_right, gmul_xor_left, gmul_xor_left]
    _ = gmul a a ^^^ (gmul a b ^^^ gmul a b) ^^^ gmul b b := by rw [gmul_comm b a]; ac_rfl
    _ = gmul a a ^^^ gmul b b := by simp

theorem gfSquare_gmul (a b : Byte) : gfSquare (gmul a b) = gmul (gfSquare a) (gfSquare b) :=
  calc gmul (gmul a b) (gmul a b) = gmul a (gmul b (gmul a b)) := gmul_assoc _ _ _
    _ = gmul a (gmul a (gmul b b)) := by rw [gmul_comm b (gmul a b), gmul_assoc a b b]
    _ = gmul (gmul a a) (gmul b b) := (gmul_assoc _ _ _).symm

theorem iterate_gfSquare_xor (n : Nat) (a b : Byte) :
    gfSquare^[n] (a ^^^ b) = gfSquare^[n] a ^^^ gfSquare^[n] b :=
  Function.Semiconj₂.iterate gfSquare_xor n a b

theorem iterate_gfSquare_gmul (n : Nat) (a b : Byte) :
    gfSquare^[n] (gmul a b) = gmul (gfSquare^[n] a) (gfSquare^[n] b) :=
  Function.Semiconj₂.iterate gfSquare_gmul n a b

theorem xtime_eq_gmul_two (a : Byte) : xtime a = gmul 0x02#8 a :=
  calc xtime a = xtime (gmul 0x01#8 a) := by rw [gmul_one_left]
    _ = gmul 0x02#8 a := (gmul_xtime_left 0x01#8 a).symm

/-- Eight squarings fix 0x02, so they respect `xtime`; they fix 0x01, so they fix every byte: `a^256 = a`. -/
theorem iterate_gfSquare_eight (a : Byte) : gfSquare^[8] a = a := by
  have htwo : gfSquare^[8] 0x02#8 = 0x02#8 := by decide +kernel
  have hone : gfSquare^[8] 0x01#8 = 0x01#8 := by decide +kernel
  have hlin : XtimeLinear gfSquare^[8] :=
    ⟨iterate_gfSquare_xor 8, fun a => by rw [xtime_eq_gmul_two, iterate_gfSquare_gmul, htwo, ← xtime_eq_gmul_two]⟩
  calc gfSquare^[8] a = gfSquare^[8] (gmul 0x01#8 a) := by rw [gmul_one_left]
    _ = gmul 0x01#8 a := by rw [hlin.map_gmul, hone]
    _ = a := gmul_one_left a

/-- The accumulator of the loop of `gfInverse` is a factor of its result. -/
theorem gfInverseLoop_gmul (n : Nat) (t acc c : Byte) :
    gfInverseLoop n t (gmul acc c) = gmul (gfInverseLoop n t acc) c := by
  induction n generalizing t acc with
  | zero => rfl
  | succ n ih => rw [gfInverseLoop, gfInverseLoop, gmul_assoc, gmul_comm c, ← gmul_assoc, ih]

/-- `t^2` closes the product `t^2 · t^4 · … · t^(2^n)` of the loop to `t^(2^(n+1))`. -/
theorem gmul_gfSquare_gfInverseLoop (n : Nat) (t : Byte) :
    gmul (gfInverseLoop n t 0x01#8) (gfSquare t) = gfSquare^[n + 1] t := by
  induction n generalizing t with
  | zero => exact gmul_one_left _
  | succ n ih =>
    calc gmul (gfInverseLoop n (gfSquare t) (gmul 0x01#8 (gfSquare t))) (gfSquare t)
        = gmul (gfInverseLoop n (gfSquare t) 0x01#8) (gfSquare (gfSquare t)) := by
          rw [gfInverseLoop_gmul, gmul_assoc]
          rfl
      _ = gfSquare^[n + 1] (gfSquare t) := ih (gfSquare t)

theorem gmul_gfInverse_gmul_self (a : Byte) : gmul (gmul a (gfInverse a)) a = a :=
  calc gmul (gmul a (gfInverse a)) a = gmul (gfInverse a) (gfSquare a) := by
        rw [gmul_comm a, gmul_assoc]
        rfl
    _ = gfSquare^[8] a := gmul_gfSquare_gfInverseLoop 7 a
    _ = a := iterate_gfSquare_eight a

/-- GF(2^8) has no idempotents but 0x00 and 0x01: here the polynomial of R110 matters. -/
theorem eq_zero_or_one_of_gfSquare_eq : ∀ e : Byte, gfSquare e = e → e = 0x00#8 ∨ e = 0x01#8 := by decide +kernel

/-- The power of R136 is an inverse of every byte but 0x00 (R115). -/
theorem gmul_gfInverse {a : Byte} (ha : a ≠ 0x00#8) : gmul a (gfInverse a) = 0x01#8 := by
  have hidem : gfSquare (gmul a (gfInverse a)) = gmul a (gfInverse a) :=
    calc gmul (gmul a (gfInverse a)) (gmul a (gfInverse a))
        = gmul (gmul (gmul a (gfInverse a)) a) (gfInverse a) := (gmul_assoc _ _ _).symm
      _ = gmul a (gfInverse a) := by rw [gmul_gfInverse_gmul_self]
  rcases eq_zero_or_one_of_gfSquare_eq _ hidem with hzero | hone
  · have hself := gmul_gfInverse_gmul_self a
    rw [hzero] at hself
    exact absurd (hself.symm.trans (xtimeLinear_gmul a).map_zero) ha
  · exact hone

/-- An inverse on the left is the only inverse on the right. -/
theorem eq_of_gmul_eq_one {a x y : Byte} (hx : gmul a x = 0x01#8) (hy : gmul a y = 0x01#8) : y = x :=
  calc y = gmul (gmul a x) y := by rw [hx, gmul_one_left]
    _ = gmul (gmul a y) x := (xtimeLinear_gmul y).map_gmul a x
    _ = x := by rw [hy, gmul_one_left]

/-- The shift and the reduction of R111, with the reduction written as a term. -/
theorem xtime_eq (b : Byte) : xtime b = (b <<< 1) ^^^ (if b.getLsbD 7 then 0x1B#8 else 0x00#8) := by
  rw [xtime]
  split <;> simp

/-- Bit `k` of `xtime(b)`: bit `k - 1` of `b`, flipped where bit 7 was set and 00011011 has bit `k` (R111). -/
theorem xtime_getLsbD (b : Byte) {k : Nat} (hk : k < 8) :
    (xtime b).getLsbD k = ((!decide (k < 1) && b.getLsbD (k - 1)) ^^ (b.getLsbD 7 && (0x1B#8).getLsbD k)) := by
  rw [xtime_eq, BitVec.getLsbD_xor, BitVec.getLsbD_shiftLeft]
  cases b.getLsbD 7 <;> simp [hk]

/-- Multiply-by-0x8D undoes multiply-by-x: 0x8D is the inverse of 0x02. -/
theorem xtime_gmul_8D (b : Byte) : xtime (gmul 0x8D#8 b) = b :=
  calc xtime (gmul 0x8D#8 b) = gmul 0x01#8 b := (gmul_xtime_left 0x8D#8 b).symm
    _ = b := gmul_one_left b

theorem gmul_8D_xtime (b : Byte) : gmul 0x8D#8 (xtime b) = b := by
  rw [gmul_comm, gmul_xtime_left, gmul_comm, xtime_gmul_8D]

/-- The recurrence of R114. -/
theorem rc_add_two (j : Nat) : rc (j + 2) = xtime (rc (j + 1)) := xtimeN_succ j 0x01#8

/-- The constants of MixColumns and InvMixColumns, from 0x01 by `xtime` and XOR (R117). -/
theorem mixConstants_eq_xtime :
    (0x02 : Byte) = xtime 0x01 ∧ (0x03 : Byte) = xtime 0x01 ^^^ 0x01 ∧
    (0x09 : Byte) = xtime (xtime (xtime 0x01)) ^^^ 0x01 ∧
    (0x0B : Byte) = xtime (xtime (xtime 0x01)) ^^^ xtime 0x01 ^^^ 0x01 ∧
    (0x0D : Byte) = xtime (xtime (xtime 0x01)) ^^^ xtime (xtime 0x01) ^^^ 0x01 ∧
    (0x0E : Byte) = xtime (xtime (xtime 0x01)) ^^^ xtime (xtime 0x01) ^^^ xtime 0x01 := by
  decide

/-! ## The obligations -/

/-- Settles O40: the inverse is the power of R136. -/
theorem gmulFieldLaws : Obligations.GmulFieldLaws :=
  ⟨gmul_comm, gmul_xor_right, gmul_assoc,
    fun a ha => ⟨gfInverse a, gmul_gfInverse ha, fun _ hy => eq_of_gmul_eq_one (gmul_gfInverse ha) hy⟩⟩

/-- Settles O38: the bits by `xtime_getLsbD`, and the bijection because multiply-by-0x8D undoes `xtime`. -/
theorem xtimeBits : Obligations.XtimeBits := by
  refine ⟨fun b => ?_, Function.LeftInverse.injective gmul_8D_xtime, fun b => ⟨_, xtime_gmul_8D b⟩⟩
  simp only [xtime_getLsbD, Nat.reduceLT]
  simp [xtime_eq]

/-- Settles O39: the loop of the product takes the bits in the order of the sum. -/
theorem gmulIsTheSumOverSetBits : Obligations.GmulIsTheSumOverSetBits := gmul_eq_foldl

/-- Settles O41: the product is linear in its left operand. -/
theorem constantMultipliers : Obligations.ConstantMultipliers := by
  intro a
  obtain ⟨h2, h3, h9, hB, hD, hE⟩ := mixConstants_eq_xtime
  rw [h2, h3, h9, hB, hD, hE]
  simp

/-- Settles O42: the recurrence is `xtimeN`'s, one index further. -/
theorem roundConstants : Obligations.RoundConstants := by
  refine ⟨rfl, fun i hi => ?_, by decide⟩
  obtain ⟨j, rfl⟩ := Nat.exists_eq_add_of_le' hi
  exact rc_add_two j

end Sys2Proof.Machine

/-! # Proofs of the statements about the S-boxes (spec/41_sbox.md)

A table is known only by its entries, so three facts are checked entry by entry: the inverse ROM undoes the forward
ROM, the forward ROM with the affine map undone holds a multiplicative inverse of its index, and no entry is its index
or the complement of it. The rest follows: an injective map of the 256 bytes is onto, so the forward ROM undoes the
inverse ROM too; inverses in the field are unique, so the entry is the affine map of `gfInverse`; and what holds of each
byte lifts to blocks. -/

namespace Sys2Proof.Machine

/-! ## The ROMs -/

@[simp] theorem invSbox_sbox : ∀ b : Byte, substituteByte (substituteByte b SBOX) INV_SBOX = b := by decide +kernel

/-- Every byte is an entry of the forward ROM, since the ROM is injective on the 256 bytes. -/
theorem sbox_surjective : Function.Surjective (substituteByte · SBOX) :=
  Finite.surjective_of_injective (Function.LeftInverse.injective (g := (substituteByte · INV_SBOX)) invSbox_sbox)

@[simp] theorem sbox_invSbox (b : Byte) : substituteByte (substituteByte b INV_SBOX) SBOX = b := by
  obtain ⟨a, rfl⟩ := sbox_surjective b
  exact congrArg (substituteByte · SBOX) (invSbox_sbox a)

/-- The inverse of the affine map of R136. -/
def affineInverse (a : Byte) : Byte := a.rotateLeft 1 ^^^ a.rotateLeft 3 ^^^ a.rotateLeft 6 ^^^ 0x05#8

theorem affine_affineInverse : ∀ a : Byte, affine (affineInverse a) = a := by decide +kernel

/-- The forward ROM, with the affine map undone, against the product of R112. -/
theorem gmul_affineInverse_sbox :
    ∀ b : Byte, b ≠ 0x00#8 → gmul b (affineInverse (substituteByte b SBOX)) = 0x01#8 := by decide +kernel

theorem gfInverse_zero : gfInverse 0x00#8 = 0x00#8 := by decide

theorem sbox_eq_affine (b : Byte) : substituteByte b SBOX = affine (gfInverse b) := by
  by_cases hb : b = 0x00#8
  · rw [hb, gfInverse_zero]
    decide
  · have hinv : affineInverse (substituteByte b SBOX) = gfInverse b :=
      eq_of_gmul_eq_one (gmul_gfInverse hb) (gmul_affineInverse_sbox b hb)
    rw [← hinv, affine_affineInverse]

/-- The forward ROM has no fixed point and no opposite fixed point (R136). -/
theorem sbox_not_fixed : ∀ b : Byte, substituteByte b SBOX ≠ b ∧ substituteByte b SBOX ≠ b ^^^ 0xFF#8 := by
  decide +kernel

/-! ## The substitutions of a whole block -/

@[simp] theorem byte_subBytes (s : Block) (i : Fin 16) : byte (subBytes s) i = substituteByte (byte s i) SBOX :=
  byte_blockOf _ i

@[simp] theorem byte_invSubBytes (s : Block) (i : Fin 16) :
    byte (invSubBytes s) i = substituteByte (byte s i) INV_SBOX :=
  byte_blockOf _ i

@[simp] theorem elem_subBytes (s : Block) (r c : Fin 4) : elem (subBytes s) r c = substituteByte (elem s r c) SBOX :=
  byte_subBytes s (elemIndex r c)

@[simp] theorem elem_shiftRows (s : Block) (r c : Fin 4) :
    elem (shiftRows s) r c = elem s r ⟨(c.val + r.val) % 4, by omega⟩ :=
  elem_stateOf _ r c

@[simp] theorem invSubBytes_subBytes (s : Block) : invSubBytes (subBytes s) = s :=
  block_ext fun i => by simp

/-- ShiftRows moves elements, and SubBytes acts on each by itself (R158). -/
theorem shiftRows_subBytes (s : Block) : shiftRows (subBytes s) = subBytes (shiftRows s) :=
  state_ext fun r c => by simp

/-! ## The obligations -/

/-- Settles O45: the two sides of each equation have the same bytes. -/
theorem subBytesActsOnEachByte : Obligations.SubBytesActsOnEachByte :=
  fun s => ⟨byte_subBytes s, byte_invSubBytes s, invSubBytes_subBytes s, shiftRows_subBytes s⟩

/-- Settles O43: the first equation by the tables, the second because the forward ROM is onto. -/
theorem sboxesAreInverse : Obligations.SboxesAreInverse := fun b => ⟨invSbox_sbox b, sbox_invSbox b⟩

/-- Settles O44: the first clause by uniqueness of inverses, the second is the field's, the last two by the table. -/
theorem sboxIsAffineOfInverse : Obligations.SboxIsAffineOfInverse :=
  fun b => ⟨sbox_eq_affine b, gmul_gfInverse, gfInverse_zero, sbox_not_fixed b⟩

end Sys2Proof.Machine

/-! # Proofs of the statements about rows and columns (spec/42_rowcol.md)

Two States with the same elements are equal, so each operation is known by its elements. ShiftRows adds the row to the
column index and InvShiftRows subtracts it, in the integers mod 4. An element of a matrix times a State is linear in
the State; two matrices in turn act as their product, which turns the two products of R156 into the two round trips. -/

namespace Sys2Proof.Machine

/-! ## ShiftRows -/

/-- The column index of R150, as a sum mod 4. -/
theorem elem_shiftRows_add (s : Block) (r c : Fin 4) : elem (shiftRows s) r c = elem s r (c + r) :=
  elem_shiftRows s r c

/-- The column index of R151, as a difference mod 4. -/
theorem elem_invShiftRows (s : Block) (r c : Fin 4) : elem (invShiftRows s) r c = elem s r (c - r) := by
  have hcol : (⟨(c.val + 4 - r.val) % 4, by omega⟩ : Fin 4) = c - r := by
    rw [Fin.ext_iff, Fin.val_sub]
    dsimp only
    congr 1
    omega
  rw [← hcol]
  exact elem_stateOf _ r c

theorem invShiftRows_shiftRows (s : Block) : invShiftRows (shiftRows s) = s :=
  state_ext fun r c => by rw [elem_invShiftRows, elem_shiftRows_add, sub_add_cancel]

theorem shiftRows_invShiftRows (s : Block) : shiftRows (invShiftRows s) = s :=
  state_ext fun r c => by rw [elem_shiftRows_add, elem_invShiftRows, add_sub_cancel_right]

theorem shiftRows_four_times (s : Block) : shiftRows (shiftRows (shiftRows (shiftRows s))) = s :=
  have hcol : ∀ r c : Fin 4, c + r + r + r + r = c := by decide
  state_ext fun r c => by simp only [elem_shiftRows_add, hcol]

/-! ## A matrix times a State -/

@[simp] theorem gmul_zero_left (b : Byte) : gmul 0x00#8 b = 0x00#8 := (xtimeLinear_gmul b).map_zero

theorem gmul_two_left (b : Byte) : gmul 0x02#8 b = xtime b := (xtime_eq_gmul_two b).symm

theorem gmul_three_left (b : Byte) : gmul 0x03#8 b = xtime b ^^^ b :=
  calc gmul (0x02#8 ^^^ 0x01#8) b = gmul 0x02#8 b ^^^ gmul 0x01#8 b := gmul_xor_left _ _ b
    _ = xtime b ^^^ b := by rw [gmul_two_left, gmul_one_left]

/-- The sum of R154 and R155: row `r` of the matrix against column `c` of the State. -/
theorem elem_matrixTimes (m : MixMatrix) (s : Block) (r c : Fin 4) :
    elem (matrixTimes m s) r c = gmul m[r][0] (elem s 0 c) ^^^ gmul m[r][1] (elem s 1 c) ^^^
      gmul m[r][2] (elem s 2 c) ^^^ gmul m[r][3] (elem s 3 c) :=
  elem_stateOf _ r c

theorem matrixTimes_xor (m : MixMatrix) (s t : Block) :
    matrixTimes m (s ^^^ t) = matrixTimes m s ^^^ matrixTimes m t :=
  state_ext fun r c => by
    simp only [elem_matrixTimes, elem_xor, gmul_xor_right]
    ac_rfl

/-- Where the entries of every row add up to 0x01, a column of four equal bytes is unchanged. -/
theorem elem_matrixTimes_of_equal_bytes {m : MixMatrix}
    (hm : ∀ r : Fin 4, m[r][0] ^^^ m[r][1] ^^^ m[r][2] ^^^ m[r][3] = 0x01#8) {s : Block} {c : Fin 4} {b : Byte}
    (hs : ∀ r, elem s r c = b) (r : Fin 4) : elem (matrixTimes m s) r c = b := by
  rw [elem_matrixTimes, hs, hs, hs, hs, ← gmul_xor_left, ← gmul_xor_left, ← gmul_xor_left, hm, gmul_one_left]

theorem MIX_row_sum : ∀ r : Fin 4, MIX[r][0] ^^^ MIX[r][1] ^^^ MIX[r][2] ^^^ MIX[r][3] = 0x01#8 := by decide

theorem INV_MIX_row_sum :
    ∀ r : Fin 4, INV_MIX[r][0] ^^^ INV_MIX[r][1] ^^^ INV_MIX[r][2] ^^^ INV_MIX[r][3] = 0x01#8 := by decide

/-- Entry (r, c) of the product of two matrices over GF(2^8) (R156). -/
def matrixProduct (m n : MixMatrix) (r c : Fin 4) : Byte :=
  gmul m[r][0] n[0][c] ^^^ gmul m[r][1] n[1][c] ^^^ gmul m[r][2] n[2][c] ^^^ gmul m[r][3] n[3][c]

/-- Two matrices in turn act on a State as their product. -/
theorem elem_matrixTimes_matrixTimes (m n : MixMatrix) (s : Block) (r c : Fin 4) :
    elem (matrixTimes m (matrixTimes n s)) r c =
      gmul (matrixProduct m n r 0) (elem s 0 c) ^^^ gmul (matrixProduct m n r 1) (elem s 1 c) ^^^
        gmul (matrixProduct m n r 2) (elem s 2 c) ^^^ gmul (matrixProduct m n r 3) (elem s 3 c) := by
  simp only [elem_matrixTimes, matrixProduct, gmul_xor_left, gmul_xor_right, gmul_assoc]
  ac_rfl

/-- A matrix whose product with another is the identity undoes it on every State. -/
theorem matrixTimes_matrixTimes_of_inverse {m n : MixMatrix}
    (h : ∀ r c, matrixProduct m n r c = if r = c then 0x01#8 else 0x00#8) (s : Block) :
    matrixTimes m (matrixTimes n s) = s :=
  state_ext fun r c => by
    rw [elem_matrixTimes_matrixTimes, h, h, h, h]
    fin_cases r <;> simp

theorem matrixProduct_MIX_INV_MIX :
    ∀ r c, matrixProduct MIX INV_MIX r c = if r = c then 0x01#8 else 0x00#8 := by decide

theorem matrixProduct_INV_MIX_MIX :
    ∀ r c, matrixProduct INV_MIX MIX r c = if r = c then 0x01#8 else 0x00#8 := by decide

/-! ## AddRoundKey -/

/-- Byte `r` of word `4k + c` of the store is element (r, c) of round key `k` (R68). -/
theorem elem_roundKey (rks : RoundKeyStore) (k : Fin 11) (r c : Fin 4) (h : 4 * k.val + c.val < 44) :
    elem (roundKey rks k) r c = wbyte rks[4 * k.val + c.val] r := by
  rw [← wbyte_column, column_roundKey rks k c h]

theorem addRoundKey_addRoundKey (rks : RoundKeyStore) (s : Block) (k : Fin 11) :
    addRoundKey rks (addRoundKey rks s k) k = s := by
  rw [addRoundKey, addRoundKey, BitVec.xor_assoc, BitVec.xor_self, BitVec.xor_zero]

/-! ## The obligations -/

/-- Settles O46: the rotations are a sum and a difference of indexes mod 4. -/
theorem shiftRowsRotatesTheRows : Obligations.ShiftRowsRotatesTheRows := by
  refine fun s => ⟨fun r c c' h => ?_, fun r c c' h => ?_, invShiftRows_shiftRows s, shiftRows_invShiftRows s,
    shiftRows_four_times s⟩
  · have hcol : c' = c + r := Fin.ext h
    rw [elem_shiftRows_add, hcol]
  · have hcol : c' + r = c := Fin.ext h
    rw [elem_invShiftRows, ← hcol, add_sub_cancel_right]

/-- Settles O47: the rows are read off the matrices, with the constants 0x01, 0x02 and 0x03 as `xtime` and XOR. -/
theorem mixColumnsWrittenOut : Obligations.MixColumnsWrittenOut := by
  refine ⟨fun s c => ⟨?_, ?_, ?_, ?_, elem_matrixTimes INV_MIX s 0 c, elem_matrixTimes INV_MIX s 1 c,
    elem_matrixTimes INV_MIX s 2 c, elem_matrixTimes INV_MIX s 3 c, fun h1 h2 h3 r => ?_⟩, matrixTimes_xor MIX⟩
  iterate 4 · simp [mixColumns, elem_matrixTimes, MIX, gmul_two_left, gmul_three_left]
  · have hs : ∀ r, elem s r c = elem s 0 c := by simp [Fin.forall_fin_succ, h1, h2, h3]
    rw [hs r]
    exact ⟨elem_matrixTimes_of_equal_bytes MIX_row_sum hs r,
      elem_matrixTimes_of_equal_bytes INV_MIX_row_sum hs r⟩

/-- Settles O48: the products are evaluated, and a product that is the identity undoes on every State. -/
theorem mixMatricesAreInverse : Obligations.MixMatricesAreInverse :=
  ⟨fun r c => ⟨matrixProduct_MIX_INV_MIX r c, matrixProduct_INV_MIX_MIX r c⟩,
    fun s => ⟨matrixTimes_matrixTimes_of_inverse matrixProduct_INV_MIX_MIX s,
      matrixTimes_matrixTimes_of_inverse matrixProduct_MIX_INV_MIX s⟩⟩

/-- Settles O49: a column of the round key is a word of the store. -/
theorem addRoundKeyIsBytewiseXor : Obligations.AddRoundKeyIsBytewiseXor := by
  refine fun rks s k => ⟨fun r c j hj => ?_, addRoundKey_addRoundKey rks s k⟩
  obtain ⟨j, hlt⟩ := j
  subst hj
  rw [addRoundKey, elem_xor, elem_roundKey rks k r c hlt]
  rfl

end Sys2Proof.Machine

/-! # Proofs of the statements about the key schedule (spec/43_key_schedule.md)

A word is known by its four bytes, and each word function by what it does to a byte: RotWord moves it, SubWord
substitutes it, and T also XORs the round constant into byte 0. The words of the expanded key are the key's columns
followed by the recurrence, and round key 0 has the key's columns. A progress edge of the expansion is
`keyExpandStage` on the state before the edge, with some outcome of the presented command in `err_code`. -/

namespace Sys2Proof.Machine

/-! ## The word functions -/

theorem wbyte_getLsbD (w : Word) (j : Fin 4) {k : Nat} (hk : k < 8) :
    (wbyte w j).getLsbD k = w.getLsbD (24 - 8 * j.val + k) := by
  simp [wbyte, hk]

/-- RotWord moves the word up by 8 bits, and the top 8 bits to the bottom (R171). -/
theorem rotWord_getLsbD (w : Word) {k : Nat} (hk : k < 32) :
    (rotWord w).getLsbD k = if k < 8 then w.getLsbD (24 + k) else w.getLsbD (k - 8) := by
  rw [rotWord, BitVec.getLsbD_append]
  split
  case isTrue hlow => simp [hlow]
  case isFalse =>
    have h : k - 8 < 24 := by omega
    simp [h]

/-- RotWord moves byte `j + 1`, the index taken mod 4, to byte `j` (R171). -/
@[simp] theorem wbyte_rotWord (w : Word) (j : Fin 4) : wbyte (rotWord w) j = wbyte w (j + 1) := by
  refine byte_bit_ext fun k hk => ?_
  have hj : (j + 1).val = (j.val + 1) % 4 := rfl
  rw [wbyte_getLsbD _ _ hk, wbyte_getLsbD _ _ hk, rotWord_getLsbD w (by omega)]
  split <;> exact congrArg w.getLsbD (by omega)

/-- SubWord substitutes each byte (R172). -/
@[simp] theorem wbyte_subWord (w : Word) (j : Fin 4) : wbyte (subWord w) j = substituteByte (wbyte w j) SBOX :=
  wbyte_wordOf _ j

/-- A byte before 24 zero bits is the first byte of its word, and the others are 0. -/
theorem wbyte_append_zero (b : Byte) (j : Fin 4) : wbyte (b ++ 0#24) j = if j = 0 then b else 0x00#8 := by
  refine byte_bit_ext fun k hk => ?_
  rw [wbyte_getLsbD _ _ hk, BitVec.getLsbD_append]
  split
  · have hj : j ≠ 0 := by omega
    simp [hj]
  · have hj : j = 0 := by omega
    simp [hj]

/-- T rotates, substitutes, and XORs the round constant into the first byte (R173). -/
theorem wbyte_tWord (w : Word) (i : Nat) (j : Fin 4) :
    wbyte (tWord w i) j = substituteByte (wbyte w (j + 1)) SBOX ^^^ if j = 0 then rc (i / 4) else 0x00#8 := by
  rw [tWord, wbyte_xor, wbyte_subWord, wbyte_rotWord, wbyte_append_zero]

/-! ## The words of the expanded key -/

/-- Word `c` of the expanded key is column `c` of the key, for `c` in 0..3 (R170). -/
theorem expandKey_get_keyWord (key : Block) (c : Fin 4) : (expandKey key)[c.val] = keyWord key c := by
  rw [expandKey_get_initial key c.val c.isLt, loadKey_get]
  fin_cases c <;> rfl

/-- Round key 0 is the key (R176). -/
theorem roundKey_expandKey_zero (key : Block) : roundKey (expandKey key) 0 = key := by
  refine state_ext fun r c => ?_
  calc elem (roundKey (expandKey key) 0) r c
      = wbyte (expandKey key)[4 * (0 : Fin 11).val + c.val] r := elem_roundKey _ 0 r c (by omega)
    _ = wbyte (keyWord key c) r := by simp [expandKey_get_keyWord]
    _ = elem key r c := wbyte_column key r c

/-! ## The obligations -/

/-- Settles O20: while an expansion is in progress a presented command writes `err_code` at most, so the edge is the
stage of word `kidx`. -/
theorem keyExpandProgressEdge : Obligations.KeyExpandProgressEdge := by
  intro s c h hp
  obtain ⟨code, he⟩ := edge_of_busy c (s := s) (by simp [hp])
  have hstage : progress s (reject code s) = keyExpandStage s (reject code s) := by simp [progress, hp]
  refine ⟨_, he.trans (hstage.trans (keyExpandStage_of_range _ h)), ?_, fun j hj => ?_, rfl, fun hl => ?_,
    fun hl => ?_, rfl, rfl, rfl, rfl, rfl⟩
  · exact Vector.getElem_set_self _
  · exact Vector.getElem_set_ne h.2 j.isLt (Ne.symm hj)
  · exact ⟨if_pos hl, if_pos hl, if_pos hl⟩
  · exact ⟨(if_neg hl).trans hp, if_neg hl, if_neg hl⟩

/-- Settles O50: each word function, at each byte. -/
theorem keyScheduleWordFunctions : Obligations.KeyScheduleWordFunctions := by
  refine fun w i => ⟨fun j j' h => ?_, wbyte_subWord w, fun _ _ _ => ⟨?_, ?_, ?_, ?_⟩⟩
  · have hj : j' = j + 1 := Fin.ext h
    rw [hj, wbyte_rotWord]
  all_goals simp [wbyte_tWord]

/-- Settles O51: the recurrence is `nextWord` with T written out. -/
theorem expandedKeySatisfiesTheRecurrence : Obligations.ExpandedKeySatisfiesTheRecurrence := by
  refine fun key => ⟨fun j hj => expandKey_get_keyWord key ⟨j.val, hj⟩, fun i i1 i4 h1 h4 => ?_,
    roundKey_expandKey_zero key⟩
  have e1 : i1.val = i.val - 1 := by omega
  have e4 : i4.val = i.val - 4 := by omega
  have hi : 4 ≤ i.val ∧ i.val < 44 := by omega
  simpa only [nextWord, tWord, Fin.getElem_fin, e1, e4] using expandKey_get_next key i.val hi

end Sys2Proof.Machine

/-! # Proofs of the statements about the orchestrator (spec/44_orchestrator.md)

Each decryption stage undoes its encryption stage and the other way round, so the two folds over the rounds undo each
other (R199). A block operation is a list of stage functions, and `remainingStages` says which of them are still to
come: an edge applies the first of them to `st`, whatever is presented with it. After as many edges as there are
stages the result is in `data_out`, and neither it nor the stages depend on anything but the operand and RKS (R200). -/

namespace Sys2Proof.Machine

/-! ## Each stage undoes its counterpart -/

@[simp] theorem subBytes_invSubBytes (s : Block) : subBytes (invSubBytes s) = s :=
  block_ext fun i => by rw [byte_subBytes, byte_invSubBytes, sbox_invSbox]

theorem invMixColumns_mixColumns (s : Block) : invMixColumns (mixColumns s) = s :=
  matrixTimes_matrixTimes_of_inverse matrixProduct_INV_MIX_MIX s

theorem mixColumns_invMixColumns (s : Block) : mixColumns (invMixColumns s) = s :=
  matrixTimes_matrixTimes_of_inverse matrixProduct_MIX_INV_MIX s

/-- DecLast undoes Initial (R197). -/
theorem decLast_encInitial (rks : RoundKeyStore) (s : Block) : decLast rks (encInitial rks s) = s :=
  addRoundKey_addRoundKey rks s 0

theorem encInitial_decLast (rks : RoundKeyStore) (s : Block) : encInitial rks (decLast rks s) = s :=
  addRoundKey_addRoundKey rks s 0

/-- DecRound(k) undoes round `k` (R196). -/
theorem decRound_encRound (rks : RoundKeyStore) (s : Block) (k : Fin 11) :
    decRound rks (encRound rks s k) k = s := by
  rw [decRound, encRound, addRoundKey_addRoundKey, invMixColumns_mixColumns, invShiftRows_shiftRows,
    invSubBytes_subBytes]

theorem encRound_decRound (rks : RoundKeyStore) (s : Block) (k : Fin 11) :
    encRound rks (decRound rks s k) k = s := by
  rw [decRound, encRound, subBytes_invSubBytes, shiftRows_invShiftRows, mixColumns_invMixColumns,
    addRoundKey_addRoundKey]

/-- DecFirst undoes Final (R195). -/
theorem decFirst_encFinal (rks : RoundKeyStore) (s : Block) : decFirst rks (encFinal rks s) = s := by
  rw [decFirst, encFinal, addRoundKey_addRoundKey, invShiftRows_shiftRows, invSubBytes_subBytes]

theorem encFinal_decFirst (rks : RoundKeyStore) (s : Block) : encFinal rks (decFirst rks s) = s := by
  rw [decFirst, encFinal, subBytes_invSubBytes, shiftRows_invShiftRows, addRoundKey_addRoundKey]

/-- Rounds that are undone one by one are undone in the reverse order. -/
theorem foldl_reverse_foldl {α β : Type} {f g : β → α → β} (h : ∀ x k, g (f x k) k = x) (l : List α) (x : β) :
    l.reverse.foldl g (l.foldl f x) = x := by
  induction l generalizing x with
  | nil => rfl
  | cons k l ih => rw [List.foldl_cons, List.reverse_cons, List.foldl_concat, ih, h]

theorem invCipher_cipher (rks : RoundKeyStore) (x : Block) : invCipher rks (cipher rks x) = x := by
  rw [invCipher, cipher, decFirst_encFinal, foldl_reverse_foldl (decRound_encRound rks), decLast_encInitial]

theorem cipher_invCipher (rks : RoundKeyStore) (x : Block) : cipher rks (invCipher rks x) = x := by
  have hrounds := foldl_reverse_foldl (encRound_decRound rks) innerRounds.reverse (decFirst rks x)
  rw [List.reverse_reverse] at hrounds
  rw [cipher, invCipher, encInitial_decLast, hrounds, encFinal_decFirst]

/-! ## A block operation as a list of stages -/

/-- The stages of an encryption, in order (R202). -/
def encStages (rks : RoundKeyStore) : List (Block → Block) :=
  encInitial rks :: innerRounds.map (fun k s => encRound rks s k) ++ [encFinal rks]

/-- The stages of a decryption, in order (R203). -/
def decStages (rks : RoundKeyStore) : List (Block → Block) :=
  decFirst rks :: innerRounds.reverse.map (fun k s => decRound rks s k) ++ [decLast rks]

/-- A block after the stages of a list. -/
def applyStages (fs : List (Block → Block)) (s : Block) : Block := fs.foldl (fun x f => f x) s

theorem applyStages_concat (fs : List (Block → Block)) (f : Block → Block) (s : Block) :
    applyStages (fs ++ [f]) s = f (applyStages fs s) :=
  List.foldl_concat _ _ _ _

theorem applyStages_encStages (rks : RoundKeyStore) (p : Block) : applyStages (encStages rks) p = cipher rks p := rfl

theorem applyStages_decStages (rks : RoundKeyStore) (c : Block) : applyStages (decStages rks) c = invCipher rks c := rfl

/-- The stages of the block in progress that are still to come: `rnd` counts them up in an encryption and down in a
decryption (R231, R232). -/
def remainingStages (s : State) : List (Block → Block) :=
  match s.phase with
  | .enc => (encStages s.rks).drop s.rnd.val
  | .dec => (decStages s.rks).drop (10 - s.rnd.val)
  | .idle | .kexp => []

theorem phase_ne_idle_of_remainingStages {s : State} (h : remainingStages s ≠ []) : s.phase ≠ .idle :=
  fun hp => h (by rw [remainingStages, hp])

/-- Progress of a block with `f` as its next stage and `fs` after it, beside a command that writes `err_code` at most:
`f` is applied to `st`, and the last stage completes the operation. -/
theorem progress_of_remainingStages {s : State} (code : ErrCode) {f : Block → Block} {fs : List (Block → Block)}
    (h : remainingStages s = f :: fs) :
    (fs = [] ∧ progress s (reject code s) = .next (finishBlock (f s.st) (reject code s))) ∨
    ∃ k, fs ≠ [] ∧ remainingStages (nextStage (f s.st) k (reject code s)) = fs ∧
      progress s (reject code s) = .next (nextStage (f s.st) k (reject code s)) := by
  obtain ⟨phase, rnd, _, _, _, _, _, _, _, _, _⟩ := s
  cases phase with
  | idle | kexp => cases h
  | enc =>
    cases rnd using Fin.lastCases with
    | last =>
      cases h
      exact .inl ⟨rfl, rfl⟩
    | cast i =>
      refine .inr ⟨i.succ, ?_⟩
      fin_cases i <;> cases h <;> exact ⟨List.cons_ne_nil _ _, rfl, rfl⟩
  | dec =>
    cases rnd using Fin.cases with
    | zero =>
      cases h
      exact .inl ⟨rfl, rfl⟩
    | succ i =>
      refine .inr ⟨i.castSucc, ?_⟩
      fin_cases i <;> cases h <;> exact ⟨List.cons_ne_nil _ _, rfl, rfl⟩

/-- An edge of a block in progress applies the next stage, whatever is presented with it. -/
theorem edge_of_remainingStages {e : EdgeInputs} (hr : e.rst = false) {s : State} {f : Block → Block}
    {fs : List (Block → Block)} (h : remainingStages s = f :: fs) :
    ∃ code, (fs = [] ∧ edge e s = .next (finishBlock (f s.st) (reject code s))) ∨
      ∃ k, fs ≠ [] ∧ remainingStages (nextStage (f s.st) k (reject code s)) = fs ∧
        edge e s = .next (nextStage (f s.st) k (reject code s)) := by
  obtain ⟨rst, c⟩ := e
  cases hr
  obtain ⟨code, he⟩ := edge_of_busy c (phase_ne_idle_of_remainingStages (s := s) (by simp [h]))
  rw [he]
  exact ⟨code, progress_of_remainingStages code h⟩

/-! ## Runs of a block operation -/

/-- As many edges as there are stages before the last `fs` apply those stages to `st`, and write nothing else but
`rnd` and `err_code`. -/
theorem runEdges_earlier_stages {gs fs : List (Block → Block)} (hfs : fs ≠ []) {es : List EdgeInputs} {s : State}
    (hes : NoReset es) (hlen : es.length = gs.length) (h : remainingStages s = gs ++ fs) :
    ∃ k code, remainingStages (nextStage (applyStages gs s.st) k (reject code s)) = fs ∧
      runEdges es s = .next (nextStage (applyStages gs s.st) k (reject code s)) := by
  induction gs generalizing es s with
  | nil =>
    obtain rfl := List.length_eq_zero_iff.mp hlen
    exact ⟨s.rnd, s.errCode, h, rfl⟩
  | cons g gs ih =>
    cases es with
    | nil => cases hlen
    | cons e es =>
      obtain ⟨he, hes⟩ := List.forall_mem_cons.mp hes
      obtain ⟨code, ⟨hnil, -⟩ | ⟨k, -, hk, hedge⟩⟩ := edge_of_remainingStages he h
      · exact absurd (List.append_eq_nil_iff.mp hnil).2 hfs
      · rw [runEdges_cons_next hedge]
        exact ih hes (Nat.succ_injective hlen) hk

/-- As many edges as there are stages complete the operation, with every stage applied. -/
theorem runEdges_all_stages {fs : List (Block → Block)} (hfs : fs ≠ []) {es : List EdgeInputs} {s : State}
    (hes : NoReset es) (hlen : es.length = fs.length) (h : remainingStages s = fs) :
    ∃ k code, runEdges es s = .next (finishBlock (applyStages fs s.st) { s with rnd := k, errCode := code }) := by
  obtain rfl | ⟨gs, f, rfl⟩ := List.eq_nil_or_concat' fs
  · exact absurd rfl hfs
  obtain rfl | ⟨es, e, rfl⟩ := List.eq_nil_or_concat' es
  · simp at hlen
  obtain ⟨hes, he⟩ := List.forall_mem_append.mp hes
  obtain ⟨k, _, hk, hrun⟩ := runEdges_earlier_stages (List.cons_ne_nil f []) hes (by simpa using hlen) h
  obtain ⟨code, ⟨-, hedge⟩ | ⟨_, hne, -⟩⟩ := edge_of_remainingStages (he e (by simp)) hk
  · refine ⟨k, code, ?_⟩
    rw [runEdges_append hrun, runEdges_cons_next hedge, applyStages_concat]
    rfl
  · exact absurd rfl hne

/-! ## Accepted block commands -/

/-- An idle engine's edge that presents a well-formed instruction is that instruction's effect. -/
theorem edge_presentEdge_of_idle (u : CommandPorts) {i : Instr} (hi : i.wellFormed = true) {s : State}
    (hp : s.phase = .idle) : edge (presentEdge u i) s = exec i s := by
  rw [presentEdge, edge_of_idle _ hp, decode_encode u hi]

theorem exec_encrypt_of_ready (data : Block) {s : State} (hp : s.phase = .idle) (hk : s.keyValid = true) :
    exec (.encrypt data) s = .next (startEncrypt data (accept s)) :=
  present_of_accept _ (by simp [rejectCause, hp, hk])

theorem exec_decrypt_of_ready (data : Block) {s : State} (hp : s.phase = .idle) (hk : s.keyValid = true) :
    exec (.decrypt data) s = .next (startDecrypt data (accept s)) :=
  present_of_accept _ (by simp [rejectCause, hp, hk])

/-- An encryption run to its end leaves the cipher of its operand in `data_out` (R194, R225). -/
theorem runEdges_encrypt (u : CommandPorts) (data : Block) {s : State} (hp : s.phase = .idle)
    (hk : s.keyValid = true) {es : List EdgeInputs} (hes : NoReset es) (hlen : es.length = 11) :
    ∃ t, runEdges (presentEdge u (.encrypt data) :: es) s = .next t ∧ t.dataOut = cipher s.rks data := by
  have hedge := (edge_presentEdge_of_idle u (i := .encrypt data) rfl hp).trans (exec_encrypt_of_ready data hp hk)
  obtain ⟨k, code, hrun⟩ := runEdges_all_stages (s := startEncrypt data (accept s)) (fs := encStages s.rks)
    (List.cons_ne_nil _ _) hes hlen rfl
  exact ⟨_, (runEdges_cons_next hedge).trans hrun, applyStages_encStages s.rks data⟩

/-- A decryption run to its end leaves the inverse cipher of its operand in `data_out` (R198, R226). -/
theorem runEdges_decrypt (u : CommandPorts) (data : Block) {s : State} (hp : s.phase = .idle)
    (hk : s.keyValid = true) {es : List EdgeInputs} (hes : NoReset es) (hlen : es.length = 11) :
    ∃ t, runEdges (presentEdge u (.decrypt data) :: es) s = .next t ∧ t.dataOut = invCipher s.rks data := by
  have hedge := (edge_presentEdge_of_idle u (i := .decrypt data) rfl hp).trans (exec_decrypt_of_ready data hp hk)
  obtain ⟨k, code, hrun⟩ := runEdges_all_stages (s := startDecrypt data (accept s)) (fs := decStages s.rks)
    (List.cons_ne_nil _ _) hes hlen rfl
  exact ⟨_, (runEdges_cons_next hedge).trans hrun, applyStages_decStages s.rks data⟩

/-! ## The obligations -/

/-- Settles O34: both runs answer a function of the operand and of the store they share. -/
theorem blocksAreIndependent : Obligations.BlocksAreIndependent := by
  intro s s' data u u' es es' hp hp' hk hk' hrks hes hes' hlen hlen'
  constructor
  · obtain ⟨t, hrun, ht⟩ := runEdges_encrypt u data hp hk hes hlen
    obtain ⟨t', hrun', ht'⟩ := runEdges_encrypt u' data hp' hk' hes' hlen'
    exact ⟨t, t', hrun, hrun', by rw [ht, ht', hrks]⟩
  · obtain ⟨t, hrun, ht⟩ := runEdges_decrypt u data hp hk hes hlen
    obtain ⟨t', hrun', ht'⟩ := runEdges_decrypt u' data hp' hk' hes' hlen'
    exact ⟨t, t', hrun, hrun', by rw [ht, ht', hrks]⟩

/-- Settles O52: the stages undo each other, last one first. -/
theorem cipherRoundTrip : Obligations.CipherRoundTrip := fun rks x => ⟨invCipher_cipher rks x, cipher_invCipher rks x⟩

/-- The first known-answer vector of the source (R194). -/
theorem cipher_knownAnswer :
    cipher (expandKey 0x000102030405060708090a0b0c0d0e0f) 0x00112233445566778899aabbccddeeff =
      0x69c4e0d86a7b0430d8cdb78070b4c55a := by
  decide +kernel

/-- Settles O53: the encryption is evaluated, and the decryption undoes it. -/
theorem knownAnswerTest : Obligations.KnownAnswerTest :=
  ⟨cipher_knownAnswer, by rw [← cipher_knownAnswer, invCipher_cipher]⟩

end Sys2Proof.Machine

/-! # Proofs of the statements about the commands (spec/45_commands.md)

The acceptance test is read off its priority, one lemma per cause. An edge with a rejected command is the progress of
the operation in progress with the cause in `err_code`, which is said once in `edge_of_rejected`. A key expansion is
the invariants of R49 kept by each of its edges until `kidx` is 44, and a block command is its list of stages of the
section before. -/

namespace Sys2Proof.Machine

/-! ## The acceptance test (R222) -/

/-- The reserved opcodes are 0b100 and above (R94). -/
theorem reserved_iff : ∀ {op : BitVec 3},
    4 ≤ op.toNat ↔ op = 0b100#3 ∨ op = 0b101#3 ∨ op = 0b110#3 ∨ op = 0b111#3 := by decide

theorem rejectCause_of_reserved (s : State) {op : BitVec 3} (ho : 4 ≤ op.toNat) : rejectCause s op = .errIllegal :=
  if_pos (reserved_iff.mp ho)

theorem rejectCause_of_busy {s : State} {op : BitVec 3} (ho : op.toNat < 4) (hp : s.phase ≠ .idle) :
    rejectCause s op = .errBusy := by
  rw [rejectCause, if_neg (reserved_iff.not.mp (Nat.not_le.mpr ho)), if_pos hp]

theorem rejectCause_of_idle {s : State} {op : BitVec 3} (ho : op.toNat < 4) (hp : s.phase = .idle) :
    rejectCause s op = if (op = 0b010#3 ∨ op = 0b011#3) ∧ s.keyValid = false then .errNoKey else .errNone := by
  rw [rejectCause, if_neg (reserved_iff.not.mp (Nat.not_le.mpr ho)), if_neg (not_not.mpr hp)]

/-- The opcodes of the block commands are not reserved, and they are the two that need a key schedule. -/
theorem toNat_of_blockOp : ∀ {op : BitVec 3}, op = 0b010#3 ∨ op = 0b011#3 → op.toNat < 4 ∧ ¬op.toNat < 2 := by decide

theorem rejectCause_of_noKey {s : State} {op : BitVec 3} (ho : op = 0b010#3 ∨ op = 0b011#3) (hp : s.phase = .idle)
    (hk : s.keyValid = false) : rejectCause s op = .errNoKey :=
  (rejectCause_of_idle (toNat_of_blockOp ho).1 hp).trans (if_pos ⟨ho, hk⟩)

theorem rejectCause_of_key {s : State} {op : BitVec 3} (ho : op.toNat < 4) (hp : s.phase = .idle)
    (hk : s.keyValid = true) : rejectCause s op = .errNone :=
  (rejectCause_of_idle ho hp).trans (if_neg fun h => by simp [hk] at h)

/-- KEY_EXPAND and NOP need no key schedule (R223, R224). -/
theorem rejectCause_of_keyless {s : State} {op : BitVec 3} (ho : op.toNat < 2) (hp : s.phase = .idle) :
    rejectCause s op = .errNone :=
  (rejectCause_of_idle (Nat.lt_of_lt_of_le ho (by decide)) hp).trans
    (if_neg fun h => (toNat_of_blockOp h.1).2 ho)

/-- Settles O16: each clause is one branch of the test. -/
theorem rejectCauseHasItsPriority : Obligations.RejectCauseHasItsPriority := by
  refine fun s op => ⟨rejectCause_of_reserved s, rejectCause_of_busy, rejectCause_of_noKey,
    fun ho => rejectCause_of_key (toNat_of_blockOp ho).1, rejectCause_of_keyless, fun s' hp hk => ?_⟩
  rw [rejectCause, rejectCause, hp, hk]

/-! ## Rejected commands (R228) -/

theorem present_of_cause {op : BitVec 3} {s : State} {cause : ErrCode} (start : State → State)
    (h : rejectCause s op = cause) (hc : cause ≠ .errNone) : present op start s = .next (reject cause s) := by
  subst h
  exact present_of_reject start hc

theorem present_of_busy {op : BitVec 3} {s : State} (start : State → State) (ho : op.toNat < 4)
    (hp : s.phase ≠ .idle) : present op start s = .next (reject .errBusy s) :=
  present_of_cause start (rejectCause_of_busy ho hp) nofun

theorem present_of_noKey {op : BitVec 3} {s : State} (start : State → State) (ho : op = 0b010#3 ∨ op = 0b011#3)
    (hp : s.phase = .idle) (hk : s.keyValid = false) : present op start s = .next (reject .errNoKey s) :=
  present_of_cause start (rejectCause_of_noKey ho hp hk) nofun

/-- An edge with a rejected command is the progress of the operation in progress, with the cause in `err_code`. -/
theorem edge_of_rejected {s : State} {op : BitVec 3} (k d : Block) (ho : op ≠ 0b000#3)
    (hc : rejectCause s op ≠ .errNone) :
    edge ⟨false, ⟨true, op, k, d⟩⟩ s = progress s (reject (rejectCause s op) s) := by
  refine edge_of_exec rfl ?_
  rw [exec_decode, if_pos ⟨rfl, ho⟩]
  exact present_of_reject _ hc

/-- Settles O17: progress carries `err_code` through unread. -/
theorem rejectionWritesOnlyErrCode : Obligations.RejectionWritesOnlyErrCode := by
  intro s t op k d u ho hc h
  rw [idleEdge_progress] at h
  exact (edge_of_rejected k d ho hc).trans (progress_reject _ h)

/-- Settles O15: a reserved opcode is a rejected command in every state. -/
theorem reservedOpcodesAreIllegal : Obligations.ReservedOpcodesAreIllegal := by
  refine fun s op => ⟨rfl, fun ho k d u t h => ?_⟩
  have hcause := rejectCause_of_reserved s ho
  have hnop : op ≠ 0b000#3 := by rintro rfl; simp at ho
  have hedge := rejectionWritesOnlyErrCode s t op k d u hnop (by simp [hcause]) h
  rwa [hcause] at hedge

/-! ## Accepted commands (R229) -/

theorem exec_keyExpand_of_idle (key : Block) {s : State} (hp : s.phase = .idle) :
    exec (.keyExpand key) s = .next (startKeyExpand key (accept s)) :=
  present_of_accept _ (rejectCause_of_keyless (by decide) hp)

theorem edge_keyExpand_of_idle (u : CommandPorts) (key : Block) {s : State} (hp : s.phase = .idle) :
    edge (presentEdge u (.keyExpand key)) s = .next (startKeyExpand key (accept s)) :=
  (edge_presentEdge_of_idle u (i := .keyExpand key) rfl hp).trans (exec_keyExpand_of_idle key hp)

theorem edge_encrypt_of_ready (u : CommandPorts) (data : Block) {s : State} (hp : s.phase = .idle)
    (hk : s.keyValid = true) : edge (presentEdge u (.encrypt data)) s = .next (startEncrypt data (accept s)) :=
  (edge_presentEdge_of_idle u (i := .encrypt data) rfl hp).trans (exec_encrypt_of_ready data hp hk)

theorem edge_decrypt_of_ready (u : CommandPorts) (data : Block) {s : State} (hp : s.phase = .idle)
    (hk : s.keyValid = true) : edge (presentEdge u (.decrypt data)) s = .next (startDecrypt data (accept s)) :=
  (edge_presentEdge_of_idle u (i := .decrypt data) rfl hp).trans (exec_decrypt_of_ready data hp hk)

theorem startCommand_phase_ne_idle (c : CommandPorts) (s : State) : (startCommand c s).phase ≠ .idle := by
  rcases startCommand_cases c s with ⟨_, h⟩ | ⟨_, h | h⟩ <;> simp [h]

/-- Settles O18: on an idle engine there is no progress to add to the command's own writes. -/
theorem acceptanceEffect : Obligations.AcceptanceEffect := by
  intro s e ha
  have hp := phase_idle_of_accepts ha
  have hx := exec_of_accepts ha
  refine ⟨hp, _, hx, ?_, by simp, by simp, startCommand_phase_ne_idle _ _, by simp⟩
  rw [edge_of_exec (rst_of_accepts ha) hx, progress_of_idle _ hp]

/-- The first four words after `loadKey` are the key's columns (R224). -/
theorem loadKey_get_of_lt (key : Block) (rks : RoundKeyStore) (j : Fin 44) (hj : j.val < 4) :
    (loadKey key rks)[j] = keyWord key ⟨j.val, hj⟩ :=
  (loadKey_get_congr key rks (Vector.replicate 44 0) j.val j.isLt hj).trans
    ((expandKey_get_initial key j.val hj).symm.trans (expandKey_get_keyWord key ⟨j.val, hj⟩))

/-- Settles O12: the key's words are loaded, and the rest of the store stays. -/
theorem keyExpandIsAcceptedWhenIdle : Obligations.KeyExpandIsAcceptedWhenIdle := fun s key hp =>
  ⟨_, exec_keyExpand_of_idle key hp, rfl, rfl, rfl, rfl, rfl, loadKey_get_of_lt key s.rks,
    fun j => loadKey_get_of_ge key s.rks j.val j.isLt, rfl, rfl, rfl, rfl, rfl⟩

/-- Settles O13: the acceptance and ENCRYPT's start registers are the whole effect. -/
theorem encryptIsAcceptedWithAKey : Obligations.EncryptIsAcceptedWithAKey :=
  fun _ data hp hk => exec_encrypt_of_ready data hp hk

/-- Settles O14: the acceptance and DECRYPT's start registers are the whole effect. -/
theorem decryptIsAcceptedWithAKey : Obligations.DecryptIsAcceptedWithAKey :=
  fun _ data hp hk => exec_decrypt_of_ready data hp hk

/-! ## Part (1) and the step (R220) -/

/-- Settles O19: part (1) is nothing, a rejection, or an acceptance with the command's start registers. -/
theorem everyInstructionAnswersANextState : Obligations.EveryInstructionAnswersANextState := by
  intro i s
  rcases exec_cases i s with h | ⟨_, h⟩ | ⟨_, _, _, h⟩ | ⟨_, _, _, h⟩ | ⟨_, _, _, h⟩ <;>
    exact ⟨_, h, rfl, rfl, rfl⟩

/-- Settles O10: an edge with NOP adds nothing to the progress, and neither does an idle edge. -/
theorem nopWritesNothing : Obligations.NopWritesNothing := by
  refine fun s => ⟨rfl, fun u v => ?_⟩
  have hnop : exec (decode (presentEdge u .nop).cmd) s = .next s := by
    rw [presentEdge, decode_encode u rfl]
    rfl
  rw [edge_of_exec rfl hnop, idleEdge_progress]

theorem step_of_inputs_cons {s : State} {e : EdgeInputs} {rest : List EdgeInputs} (h : s.inputs = e :: rest) :
    step s = edge e { s with inputs := rest } := by
  rw [step_eq, State.nextInputs, State.dropInput, h, List.tail_cons]

/-- Settles O6: the step is the edge of the first listed inputs, on the state with the rest of the list. -/
theorem stepRunsTheDecodedInstruction : Obligations.StepRunsTheDecodedInstruction := by
  rintro s e rest i hin hr rfl
  rw [step_of_inputs_cons hin]
  refine ⟨fun t hx => edge_of_exec hr hx, fun r hx => ?_, fun r hx => ?_, fun u j t hj hx => ?_⟩
  · simp [edge, hr, hx]
  · simp [edge, hr, hx]
  · have hin' : (s.withNextInputs (presentEdge u j)).inputs = presentEdge u j :: rest := by simp [hin]
    rw [step_of_inputs_cons hin']
    refine edge_of_exec rfl ?_
    rw [presentEdge, decode_encode u hj]
    exact hx

/-! ## Progress edges (R231, R232) -/

theorem encryptStage_initial {s : State} (acc : State) (h : s.rnd.val = 0) :
    encryptStage s acc = nextStage (encInitial s.rks s.st) 1 acc :=
  if_pos h

theorem encryptStage_round {s : State} (acc : State) (h : 1 ≤ s.rnd.val ∧ s.rnd.val ≤ 9) :
    encryptStage s acc = nextStage (encRound s.rks s.st s.rnd) ⟨s.rnd.val + 1, by omega⟩ acc := by
  rw [encryptStage, if_neg (by omega), dif_pos h.2]

theorem encryptStage_final {s : State} (acc : State) (h : s.rnd.val = 10) :
    encryptStage s acc = finishBlock (encFinal s.rks s.st) acc := by
  rw [encryptStage, if_neg (by omega), dif_neg (by omega)]

theorem decryptStage_first {s : State} (acc : State) (h : s.rnd.val = 10) :
    decryptStage s acc = nextStage (decFirst s.rks s.st) 9 acc :=
  if_pos h

theorem decryptStage_round {s : State} (acc : State) (h : 1 ≤ s.rnd.val ∧ s.rnd.val ≤ 9) :
    decryptStage s acc = nextStage (decRound s.rks s.st s.rnd) ⟨s.rnd.val - 1, by omega⟩ acc := by
  rw [decryptStage, if_neg (by omega), if_pos h.1]

theorem decryptStage_last {s : State} (acc : State) (h : s.rnd.val = 0) :
    decryptStage s acc = finishBlock (decLast s.rks s.st) acc := by
  rw [decryptStage, if_neg (by omega), if_neg (by omega)]

theorem edge_of_enc (c : CommandPorts) {s : State} (hp : s.phase = .enc) :
    ∃ code, edge ⟨false, c⟩ s = .next (encryptStage s (reject code s)) := by
  obtain ⟨code, h⟩ := edge_of_busy c (s := s) (by simp [hp])
  exact ⟨code, by rw [h, progress, hp]⟩

theorem edge_of_dec (c : CommandPorts) {s : State} (hp : s.phase = .dec) :
    ∃ code, edge ⟨false, c⟩ s = .next (decryptStage s (reject code s)) := by
  obtain ⟨code, h⟩ := edge_of_busy c (s := s) (by simp [hp])
  exact ⟨code, by rw [h, progress, hp]⟩

/-- Settles O21, by the three kinds of stage. -/
theorem encryptProgressEdge : Obligations.EncryptProgressEdge := by
  intro s c hp
  obtain ⟨code, h⟩ := edge_of_enc c hp
  refine ⟨_, h, ?_⟩
  obtain h0 | hr | h10 : s.rnd.val = 0 ∨ (1 ≤ s.rnd.val ∧ s.rnd.val ≤ 9) ∨ s.rnd.val = 10 := by omega
  · simp [encryptStage_initial _ h0, h0, hp]
  · have hne : s.rnd.val ≠ 0 ∧ s.rnd.val ≠ 10 := by omega
    simp [encryptStage_round _ hr, hr, hne, hp]
  · simp [encryptStage_final _ h10, h10]

/-- Settles O22, by the three kinds of stage. -/
theorem decryptProgressEdge : Obligations.DecryptProgressEdge := by
  intro s c hp
  obtain ⟨code, h⟩ := edge_of_dec c hp
  refine ⟨_, h, ?_⟩
  obtain h10 | hr | h0 : s.rnd.val = 10 ∨ (1 ≤ s.rnd.val ∧ s.rnd.val ≤ 9) ∨ s.rnd.val = 0 := by omega
  · simp [decryptStage_first _ h10, h10, hp]
  · have hne : s.rnd.val ≠ 0 ∧ s.rnd.val ≠ 10 := by omega
    simp [decryptStage_round _ hr, hr, hne, hp]
  · simp [decryptStage_last _ h0, h0]

/-! ## Completion edges (R299) -/

theorem phase_ne_idle_of_completesNext {s : State} (h : completesNext s = true) : s.phase ≠ .idle :=
  fun hp => by simp [completesNext_of_idle hp] at h

/-- A completion edge answers a next state, with the engine idle (R230 to R232). -/
theorem progress_of_completesNext {s : State} (acc : State) (h : completesNext s = true) :
    ∃ t, progress s acc = .next t ∧ t.phase = .idle := by
  have hrange (hp : s.phase = .kexp) : 4 ≤ s.kidx.val ∧ s.kidx.val < 44 := by
    have hl : s.kidx.val = 43 := by simpa [completesNext_of_kexp hp] using h
    omega
  obtain ⟨t, ht⟩ := progress_next s acc hrange
  refine ⟨t, ht, ?_⟩
  cases progress_outcome ht with
  | idle hp => exact absurd hp (phase_ne_idle_of_completesNext h)
  | keyWord hp => exact if_pos (by simpa [completesNext_of_kexp hp] using h)
  | stage _ hc => simp [h] at hc
  | lastStage => rfl

/-- Settles O33: the test reads the busy state before the edge, and the state after it is idle. -/
theorem completionEdgeHazard : Obligations.CompletionEdgeHazard := by
  intro s op k d x u hcomp hnop ho
  have hcause : rejectCause s op = .errBusy := rejectCause_of_busy ho (phase_ne_idle_of_completesNext hcomp)
  have hedge := edge_of_rejected k d hnop (s := s) (by simp [hcause])
  rw [hcause] at hedge
  obtain ⟨t, ht, hp⟩ := progress_of_completesNext (reject .errBusy s) hcomp
  exact ⟨t, _, hedge.trans ht, by simp [State.busy, hp], by simp [progress_done ht, hcomp], progress_errCode ht,
    edge_keyExpand_of_idle u x hp, rfl, rfl⟩

/-! ## KEY_EXPAND, whole (R224) -/

theorem not_acceptsCommand_of_busy (e : EdgeInputs) {s : State} (hp : s.phase ≠ .idle) : acceptsCommand e s = false :=
  Bool.eq_false_iff.mpr fun ha => hp (phase_idle_of_accepts ha)

/-- While the engine is busy the most recent key stays, and the invariants hold for it after each edge. -/
theorem edge_keeps_inv_of_busy {key : Block} {e : EdgeInputs} {s t : State} (hs : s.Inv key) (hp : s.phase ≠ .idle)
    (h : edge e s = .next t) : t.Inv key := by
  have hinv := edge_keeps_inv hs h
  rwa [latestKey_eq, if_neg (by simp [not_acceptsCommand_of_busy e hp])] at hinv

/-- An accepted KEY_EXPAND starts an expansion of its key, whatever the store held. -/
theorem startKeyExpand_inv (key : Block) (s : State) : (startKeyExpand key (accept s)).Inv key :=
  inv_of_kexp rfl rfl rfl (Nat.le_refl 4) (by simp) fun j hj =>
    (loadKey_get_of_lt key s.rks j hj).trans (expandKey_get_keyWord key ⟨j.val, hj⟩).symm

/-- What is known of a key expansion whose next word is `i`: below 44 it goes on, and at 44 it is complete. -/
structure KeyExpanding (key data : Block) (i : Nat) (s : State) : Prop where
  inv : s.Inv key
  dataOut : s.dataOut = data
  running : i < 44 → s.phase = .kexp ∧ s.kidx.val = i
  complete : i = 44 → s.phase = .idle ∧ s.keyValid = true ∧ s.done = true

/-- An edge of a key expansion computes one word, whatever is presented with it. -/
theorem edge_of_keyExpanding {key data : Block} {i : Nat} {e : EdgeInputs} {s : State} (hs : KeyExpanding key data i s)
    (hi : i < 44) (hr : e.rst = false) : ∃ t, edge e s = .next t ∧ KeyExpanding key data (i + 1) t := by
  obtain ⟨rst, c⟩ := e
  cases hr
  obtain ⟨hp, rfl⟩ := hs.running hi
  obtain ⟨-, hlo, -, -⟩ := hs.inv.expanding hp
  obtain ⟨t, ht, -, -, hkidx, hlast, hnext, -, -, hout, -⟩ := keyExpandProgressEdge s c ⟨hlo, hi⟩ hp
  refine ⟨t, ht, edge_keeps_inv_of_busy hs.inv (by simp [hp]) ht, hout.trans hs.dataOut, fun h => ?_, fun h => ?_⟩
  · exact ⟨(hnext (by omega)).1, hkidx⟩
  · exact hlast (by omega)

theorem runEdges_keyExpanding {key data : Block} {i : Nat} {es : List EdgeInputs} {s : State}
    (hs : KeyExpanding key data i s) (hes : NoReset es) (hlen : i + es.length ≤ 44) :
    ∃ t, runEdges es s = .next t ∧ KeyExpanding key data (i + es.length) t := by
  induction es generalizing i s with
  | nil => exact ⟨s, rfl, hs⟩
  | cons e es ih =>
    obtain ⟨hr, hes⟩ := List.forall_mem_cons.mp hes
    rw [List.length_cons] at hlen ⊢
    obtain ⟨m, hm, hm'⟩ := edge_of_keyExpanding hs (by omega) hr
    obtain ⟨t, ht, ht'⟩ := ih hm' hes (by omega)
    refine ⟨t, (runEdges_cons_next hm).trans ht, ?_⟩
    rwa [show i + (es.length + 1) = i + 1 + es.length by omega]

/-- Settles O30: the expansion starts at word 4, and each edge computes one word until there are 44. -/
theorem keyExpandCommand : Obligations.KeyExpandCommand := by
  refine fun s key u => ⟨fun hp => present_of_busy _ (by decide) hp, fun hp => ?_⟩
  have hedge := edge_keyExpand_of_idle u key hp
  refine ⟨⟨_, hedge, rfl, rfl, rfl, rfl, rfl, loadKey_get_of_lt key s.rks⟩, fun es hes hlen => ?_⟩
  have hstart : KeyExpanding key s.dataOut 4 (startKeyExpand key (accept s)) :=
    ⟨startKeyExpand_inv key s, rfl, fun _ => ⟨rfl, rfl⟩, nofun⟩
  obtain ⟨t, hrun, hinv, hout, hrunning, hcomplete⟩ := runEdges_keyExpanding hstart hes (by omega)
  refine ⟨t, (runEdges_cons_next hedge).trans hrun, hout, fun h => ?_, fun h => ?_⟩
  · obtain ⟨hp', -⟩ := hrunning (by omega)
    obtain ⟨hk, -⟩ := hinv.expanding hp'
    exact ⟨by simp [State.busy, hp'], hk, hinv.busyNotDone (by simp [hp'])⟩
  · obtain ⟨hp', hk, hd⟩ := hcomplete (by omega)
    exact ⟨by simp [State.busy, hp'], hk, hd, (hinv.schedule hk).2⟩

/-! ## ENCRYPT and DECRYPT, whole (R225, R226) -/

theorem busy_of_remainingStages {s : State} (h : remainingStages s ≠ []) : s.busy = true :=
  decide_eq_true (phase_ne_idle_of_remainingStages h)

/-- A block operation with the stages `fs` to come, after any number of edges up to their number: before the last
stage `data_out` keeps the previous result, and after it holds the result of all stages. -/
theorem runEdges_block {fs : List (Block → Block)} (hfs : fs ≠ []) {es : List EdgeInputs} {s : State}
    (hes : NoReset es) (hlen : es.length ≤ fs.length) (h : remainingStages s = fs) :
    ∃ t, runEdges es s = .next t ∧ t.rks = s.rks ∧ t.keyValid = s.keyValid ∧
      (es.length < fs.length → t.busy = true ∧ t.done = s.done ∧ t.dataOut = s.dataOut) ∧
      (es.length = fs.length → t.busy = false ∧ t.done = true ∧ t.dataOut = applyStages fs s.st) := by
  rcases Nat.lt_or_eq_of_le hlen with hlt | heq
  · have hrest : fs.drop es.length ≠ [] := by simpa using hlt
    obtain ⟨k, code, hrem, hrun⟩ := runEdges_earlier_stages (gs := fs.take es.length) hrest hes (by simp [hlen])
      (h.trans (List.take_append_drop _ _).symm)
    exact ⟨_, hrun, rfl, rfl, fun _ => ⟨busy_of_remainingStages (hrem ▸ hrest), rfl, rfl⟩,
      fun heq => absurd heq hlt.ne⟩
  · obtain ⟨k, code, hrun⟩ := runEdges_all_stages hfs hes heq h
    exact ⟨_, hrun, rfl, rfl, fun hlt => absurd heq hlt.ne, fun _ => ⟨rfl, rfl, rfl⟩⟩

/-- Settles O31: the accepting edge leaves the stages of an encryption to come. -/
theorem encryptCommand : Obligations.EncryptCommand := by
  refine fun s data u => ⟨fun hp => present_of_busy _ (by decide) hp,
    fun hp hk => present_of_noKey _ (by decide) hp hk, fun hp hk => ?_⟩
  have hedge := edge_encrypt_of_ready u data hp hk
  refine ⟨hedge, fun es hes hlen => ?_⟩
  obtain ⟨t, hrun, hrks, hkey, hbefore, hend⟩ := runEdges_block (s := startEncrypt data (accept s))
    (fs := encStages s.rks) (List.cons_ne_nil _ _) hes hlen rfl
  exact ⟨t, (runEdges_cons_next hedge).trans hrun, hrks, hkey.trans hk, hbefore, hend⟩

/-- Settles O32: the accepting edge leaves the stages of a decryption to come. -/
theorem decryptCommand : Obligations.DecryptCommand := by
  refine fun s data u => ⟨fun hp => present_of_busy _ (by decide) hp,
    fun hp hk => present_of_noKey _ (by decide) hp hk, fun hp hk => ?_⟩
  have hedge := edge_decrypt_of_ready u data hp hk
  refine ⟨hedge, fun es hes hlen => ?_⟩
  obtain ⟨t, hrun, hrks, hkey, hbefore, hend⟩ := runEdges_block (s := startDecrypt data (accept s))
    (fs := decStages s.rks) (List.cons_ne_nil _ _) hes hlen rfl
  exact ⟨t, (runEdges_cons_next hedge).trans hrun, hrks, hkey.trans hk, hbefore, hend⟩

end Sys2Proof.Machine

/-! # Proofs of the statements about the host (spec/46_host_framing.md)

The engine's side is one notion, `HoldsSchedule`: idle with the schedule of a key. From the invariants KEY_EXPAND
reaches it, and each block command keeps it and answers its block; the message functions follow by induction on the
blocks. One notion, `CompletesAfter`, says when an operation ends, and the host's wait ends there.
The host's side is the conversion between blocks and bits, the cut into blocks, and the padding. -/

namespace Sys2Proof.Machine

/-! ## Key normalisation (R250) -/

theorem byte_blockOfBytes (bytes : List Byte) (i : Fin 16) : byte (blockOfBytes bytes) i = bytes[i.val]?.getD 0 :=
  byte_blockOf _ i

/-- Settles O54: a byte of the key where there is one, and the zero fill elsewhere. -/
theorem keyNormalisation : Obligations.KeyNormalisation := by
  intro kb i
  unfold normalizeKey
  by_cases hlen : 16 ≤ kb.length
  · have hi : i.val < kb.length := by omega
    simp [hlen, hi, byte_blockOfBytes]
  · by_cases hi : i.val < kb.length
    · simp [hlen, hi, byte_blockOfBytes, List.getElem?_append_left hi]
    · have hfill : i.val - kb.length < 16 - kb.length := by omega
      simp [hlen, hi, byte_blockOfBytes, List.getElem?_append_right (Nat.le_of_not_lt hi), hfill]

/-! ## Padding and unpadding (R252, R253) -/

@[simp] theorem length_bits8 (n : Nat) : (bits8 n).length = 8 := by simp [bits8]

/-- `unsigned` is the inverse of `bits8` (R251). -/
theorem unsigned_bits8 : ∀ n < 256, unsigned (bits8 n) = n := by decide +kernel

/-- Settles O55: the pad length is a whole number of bytes, at most 16 of them. -/
theorem paddingRule : Obligations.PaddingRule := by
  refine fun m => ⟨fun h => by simp [pad, h], fun h => ?_⟩
  have hp : 128 - m.length % 128 + m.length % 128 = 128 := by omega
  refine ⟨128 - m.length % 128, bits8 ((128 - m.length % 128) / 8), hp, by simp [pad, h], length_bits8 _,
    unsigned_bits8 _ (by omega), by omega, by omega, ?_⟩
  simp only [List.length_append, List.length_replicate, length_bits8]
  omega

theorem unpad_of_short {m : Message} (h : m.length < 8) : unpad m = .error (.corruptPadding m.length) := by
  simp [unpad, h]

/-- Unpadding reads the pad length off the last byte. -/
theorem unpad_append (m : Message) {last : Message} (h : last.length = 8) :
    unpad (m ++ last) = if m.length + 8 < 8 * unsigned last then .error (.corruptPadding (unsigned last))
      else .ok ((m ++ last).take (m.length + 8 - 8 * unsigned last)) := by
  simp [unpad, h]

/-- Settles O56: the length is tested first, and then the declared length against it. -/
theorem unpaddingRule : Obligations.UnpaddingRule := by
  refine fun m => ⟨unpad_of_short, fun last hlast => ⟨fun h => ?_, fun h => ?_⟩⟩
  · rw [unpad_append m hlast, if_pos h]
  · rw [unpad_append m hlast, if_neg (by omega)]

/-- A byte-aligned message is padded to the next larger whole number of blocks, and unpadding gives it back. -/
theorem unpad_pad {m : Message} (h : m.length % 8 = 0) :
    ∃ padded, pad m = .ok padded ∧ padded.length = 128 * (m.length / 128 + 1) ∧ unpad padded = .ok m := by
  obtain ⟨p, tail, hsum, hpad, hlen, hval, hlo, -, -⟩ := (paddingRule m).2 h
  refine ⟨_, hpad, by simp only [List.length_append, List.length_replicate, hlen]; omega, ?_⟩
  have hbytes : 8 * unsigned tail = p := by omega
  have hzeros : (m ++ List.replicate (p - 8) false).length + 8 = m.length + p := by simp; omega
  rw [((unpaddingRule _).2 tail hlen).2 (by omega), hbytes, hzeros, Nat.add_sub_cancel, List.append_assoc,
    List.take_left]

/-! ## Blocks and bits (R251) -/

@[simp] theorem length_bitsOfBlock (v : Block) : (bitsOfBlock v).length = 128 := by simp [bitsOfBlock]

theorem blockOfBits_concat (m : Message) (b : Bool) :
    blockOfBits (m ++ [b]) = (blockOfBits m <<< 1) ||| (BitVec.ofBool b).setWidth 128 :=
  List.foldl_concat _ _ _ _

/-- The last bit of a chunk is the least significant bit of its block. -/
theorem blockOfBits_getLsbD (m : Message) {i : Nat} (hi : i < 128) :
    (blockOfBits m).getLsbD i = m.reverse[i]?.getD false := by
  induction m using List.reverseRecOn generalizing i with
  | nil => simp [blockOfBits]
  | append_singleton m b ih =>
    rw [blockOfBits_concat, List.reverse_concat]
    cases i with
    | zero => cases b <;> simp
    | succ i => simp [hi, ← ih (Nat.lt_of_succ_lt hi), BitVec.getLsbD_eq_getElem (Nat.lt_of_succ_lt hi)]

@[simp] theorem blockOfBits_bitsOfBlock (v : Block) : blockOfBits (bitsOfBlock v) = v := by
  ext i hi
  have hrev : 127 - (128 - 1 - i) = i := by omega
  simp [← BitVec.getLsbD_eq_getElem, blockOfBits_getLsbD _ hi, hi, bitsOfBlock, hrev]

theorem bitsOfBlock_blockOfBits {b : Message} (h : b.length = 128) : bitsOfBlock (blockOfBits b) = b := by
  refine List.ext_getElem (by simp [h]) fun t ht _ => ?_
  have ht' : t < 128 := by simpa using ht
  have hrev : 128 - 1 - (127 - t) = t := by omega
  have hbit : b.reverse[127 - t]? = some b[t] := by
    rw [List.getElem?_reverse (by omega), h, hrev, List.getElem?_eq_getElem]
  simp [bitsOfBlock, blockOfBits_getLsbD b (show 127 - t < 128 by omega), hbit]

/-! ## Cutting a message into blocks (R254) -/

theorem splitBlocks_append {b : Message} (hb : b.length = 128) (m : Message) :
    splitBlocks (b ++ m) = b :: splitBlocks m := by
  have hcount : (b ++ m).length / 128 = m.length / 128 + 1 := by
    rw [List.length_append, hb]
    omega
  have hdrop (k : Nat) : (b ++ m).drop (128 * (k + 1)) = m.drop (128 * k) := by
    rw [Nat.mul_succ, Nat.add_comm, ← hb, List.drop_length_add_append]
  rw [splitBlocks, hcount, List.range_succ_eq_map, List.map_cons, Nat.mul_zero, List.drop_zero, List.take_left' hb,
    List.map_map]
  simp only [splitBlocks, Function.comp_def, Nat.succ_eq_add_one, hdrop]

theorem splitBlocks_flatten {bs : List Message} (h : ∀ b ∈ bs, b.length = 128) : splitBlocks bs.flatten = bs := by
  induction bs with
  | nil => rfl
  | cons b bs ih =>
    obtain ⟨hb, hbs⟩ := List.forall_mem_cons.mp h
    rw [List.flatten_cons, splitBlocks_append hb, ih hbs]

/-- A message of whole blocks is a row of blocks. -/
theorem exists_flatten_eq {n : Nat} {m : Message} (h : m.length = 128 * n) :
    ∃ bs : List Message, bs.length = n ∧ (∀ b ∈ bs, b.length = 128) ∧ bs.flatten = m := by
  induction n generalizing m with
  | zero => exact ⟨[], rfl, nofun, (List.length_eq_zero_iff.mp h).symm⟩
  | succ n ih =>
    obtain ⟨bs, hn, hbs, hflat⟩ := ih (m := m.drop 128) (by rw [List.length_drop]; omega)
    refine ⟨m.take 128 :: bs, by simp [hn], List.forall_mem_cons.mpr ⟨by rw [List.length_take]; omega, hbs⟩, ?_⟩
    rw [List.flatten_cons, hflat, List.take_append_drop]

/-- The message functions' answer before unpadding: the bits of `f` of each block of a message. -/
def mapBlocks (f : Block → Block) (bs : List Message) : Message := bs.flatMap fun b => bitsOfBlock (f (blockOfBits b))

theorem splitBlocks_mapBlocks (f : Block → Block) (bs : List Message) :
    splitBlocks (mapBlocks f bs) = bs.map fun b => bitsOfBlock (f (blockOfBits b)) :=
  splitBlocks_flatten (by simp)

theorem length_mapBlocks (f : Block → Block) (bs : List Message) : (mapBlocks f bs).length = 128 * bs.length := by
  simp [mapBlocks, List.length_flatMap, Nat.mul_comm]

/-- Mapping the blocks of a message by `f` and then by an inverse of `f` gives the message back. -/
theorem mapBlocks_splitBlocks_mapBlocks {f g : Block → Block} (hgf : ∀ x, g (f x) = x) {bs : List Message}
    (hbs : ∀ b ∈ bs, b.length = 128) : mapBlocks g (splitBlocks (mapBlocks f bs)) = bs.flatten := by
  rw [splitBlocks_mapBlocks]
  have hb : ∀ b ∈ bs, bitsOfBlock (g (blockOfBits (bitsOfBlock (f (blockOfBits b))))) = b := fun b h => by
    rw [blockOfBits_bitsOfBlock, hgf, bitsOfBlock_blockOfBits (hbs b h)]
  rw [mapBlocks, List.flatMap_map, List.flatMap_congr hb, List.flatMap_id']

/-! ## Waiting (R257) -/

theorem waitIdle_of_not_busy (u : CommandPorts) (n : Nat) {s : State} (h : s.busy = false) :
    waitIdle u n s = .ok s := by
  cases n <;> simp [waitIdle, h]

theorem waitIdle_succ_of_busy {u : CommandPorts} (n : Nat) {s t : State} (h : s.busy = true)
    (he : edge (idleEdge u) s = .next t) : waitIdle u (n + 1) s = waitIdle u n t := by
  simp [waitIdle, h, he]

theorem busy_eq_false_iff {s : State} : s.busy = false ↔ s.phase = .idle := by simp [State.busy]

/-- The runs of an operation that takes `k` edges: busy before the last of them, and after it not busy, with `Q`. -/
def CompletesAfter (k : Nat) (Q : State → Prop) (s : State) : Prop :=
  ∀ es : List EdgeInputs, NoReset es → es.length ≤ k → ∃ t, runEdges es s = .next t ∧
    (es.length < k → t.busy = true) ∧ (es.length = k → t.busy = false ∧ Q t)

theorem CompletesAfter.next {k : Nat} {Q : State → Prop} {s : State} (h : CompletesAfter (k + 1) Q s)
    {e : EdgeInputs} (he : e.rst = false) : ∃ t, edge e s = .next t ∧ CompletesAfter k Q t := by
  have hcons {es : List EdgeInputs} (hes : NoReset es) : NoReset (e :: es) := List.forall_mem_cons.mpr ⟨he, hes⟩
  obtain ⟨t, hrun, -⟩ := h [e] (hcons nofun) (Nat.le_add_left 1 k)
  have ht : edge e s = .next t := by
    cases hedge : edge e s with
    | next m => exact (runEdges_cons_next hedge).symm.trans hrun
    | fault r | refused r => simp [runEdges, hedge] at hrun
  refine ⟨t, ht, fun es hes hlen => ?_⟩
  obtain ⟨t', hrun', hbusy, hend⟩ := h (e :: es) (hcons hes) (Nat.succ_le_succ hlen)
  exact ⟨t', (runEdges_cons_next ht).symm.trans hrun', fun hl => hbusy (Nat.succ_lt_succ hl),
    fun hl => hend (congrArg Nat.succ hl)⟩

/-- What is known before the first edge: the operation is in progress, or it is complete. -/
theorem CompletesAfter.now {k : Nat} {Q : State → Prop} {s : State} (h : CompletesAfter k Q s) :
    (0 < k → s.busy = true) ∧ (0 = k → s.busy = false ∧ Q s) := by
  obtain ⟨t, hrun, hnow⟩ := h [] nofun (Nat.zero_le k)
  cases hrun
  exact hnow

/-- The wait ends in the state that completes the operation. -/
theorem waitIdle_of_completesAfter (u : CommandPorts) {k n : Nat} (hkn : k ≤ n) {Q : State → Prop} {s : State}
    (h : CompletesAfter k Q s) : ∃ t, waitIdle u n s = .ok t ∧ t.busy = false ∧ Q t := by
  induction k generalizing n s with
  | zero =>
    obtain ⟨hb, hq⟩ := h.now.2 rfl
    exact ⟨s, waitIdle_of_not_busy u n hb, hb, hq⟩
  | succ k ih =>
    obtain ⟨n, rfl⟩ := Nat.exists_eq_add_of_le' hkn
    obtain ⟨m, hm, hm'⟩ := h.next (idleEdge_rst u)
    rw [← Nat.add_assoc, waitIdle_succ_of_busy _ (h.now.1 (Nat.succ_pos k)) hm]
    exact ih (Nat.le_add_left k n) hm'

/-- A block operation takes an edge for each stage that is to come. -/
theorem completesAfter_of_remainingStages {fs : List (Block → Block)} (hfs : fs ≠ []) {s : State}
    (h : remainingStages s = fs) : CompletesAfter fs.length
      (fun t => t.rks = s.rks ∧ t.keyValid = s.keyValid ∧ t.dataOut = applyStages fs s.st) s := by
  intro es hes hlen
  obtain ⟨t, hrun, hrks, hkey, hbefore, hend⟩ := runEdges_block hfs hes hlen h
  exact ⟨t, hrun, fun hl => (hbefore hl).1, fun hl => ⟨(hend hl).1, hrks, hkey, (hend hl).2.2⟩⟩

/-- A key expansion takes an edge for each word that is to come. -/
theorem completesAfter_of_keyExpanding {key data : Block} {i k : Nat} {s : State} (hs : KeyExpanding key data i s)
    (hi : i + k = 44) : CompletesAfter k (KeyExpanding key data 44) s := by
  intro es hes hlen
  obtain ⟨t, hrun, ht⟩ := runEdges_keyExpanding hs hes (by omega)
  refine ⟨t, hrun, fun hl => ?_, fun hl => ?_⟩
  · simp [State.busy, (ht.running (by omega)).1]
  · rw [hl, hi] at ht
    exact ⟨busy_eq_false_iff.mpr (ht.complete rfl).1, ht⟩

theorem length_remainingStages_of_block {s : State} (hp : s.phase = .enc ∨ s.phase = .dec) :
    0 < (remainingStages s).length ∧ (remainingStages s).length ≤ 11 := by
  rcases hp with hp | hp
  · have hlen : (remainingStages s).length = 11 - s.rnd.val := by
      simp [remainingStages, hp, encStages, innerRounds]
    omega
  · have hlen : (remainingStages s).length = 11 - (10 - s.rnd.val) := by
      simp [remainingStages, hp, decStages, innerRounds]
    omega

/-- Under the invariants an operation in progress takes no more edges than the host waits for (R302). -/
theorem completesAfter_of_inv {key : Block} {s : State} (hs : s.Inv key) (hbusy : s.phase ≠ .idle) :
    ∃ k ≤ 40, ∃ Q, CompletesAfter k Q s := by
  have hblock (hp : s.phase = .enc ∨ s.phase = .dec) : ∃ k ≤ 40, ∃ Q, CompletesAfter k Q s := by
    obtain ⟨hpos, hle⟩ := length_remainingStages_of_block hp
    exact ⟨_, by omega, _, completesAfter_of_remainingStages (List.ne_nil_of_length_pos hpos) rfl⟩
  cases hp : s.phase with
  | idle => exact absurd hp hbusy
  | kexp =>
    obtain ⟨-, hlo, hhi, -⟩ := hs.expanding hp
    have hexp : KeyExpanding key s.dataOut s.kidx.val s := ⟨hs, rfl, fun _ => ⟨hp, rfl⟩, fun h => by omega⟩
    exact ⟨44 - s.kidx.val, by omega, _, completesAfter_of_keyExpanding hexp (by omega)⟩
  | enc => exact hblock (.inl hp)
  | dec => exact hblock (.inr hp)

/-- Under the invariants the host's wait ends with the engine idle. -/
theorem waitIdle_of_inv (u : CommandPorts) {key : Block} {s : State} (hs : s.Inv key) :
    ∃ t, waitIdle u Config.hostWaitEdges s = .ok t ∧ t.phase = .idle := by
  by_cases hp : s.phase = .idle
  · exact ⟨s, waitIdle_of_not_busy u _ (busy_eq_false_iff.mpr hp), hp⟩
  · obtain ⟨k, hk, Q, hwait⟩ := completesAfter_of_inv hs hp
    obtain ⟨t, ht, hb, -⟩ := waitIdle_of_completesAfter u hk hwait
    exact ⟨t, ht, busy_eq_false_iff.mp hb⟩

/-! ## One command by the host's protocol (R257) -/

/-- A command presented to the engine that the wait leaves, and accepted there, runs to its completion. -/
theorem runCommand_of_accepted {u : CommandPorts} {i : Instr} {s ready a : State} {k : Nat} {Q : State → Prop}
    (hready : waitIdle u Config.hostWaitEdges s = .ok ready) (ha : edge (presentEdge u i) ready = .next a)
    (herr : a.errCode = .errNone) (hk : k ≤ 40) (h : CompletesAfter k Q a) :
    ∃ t, runCommand u i s = .ok t ∧ t.busy = false ∧ Q t := by
  simpa [runCommand, hready, ha, herr] using waitIdle_of_completesAfter u hk h

/-- The engine between two commands of a message: idle, with the schedule of the key. -/
structure HoldsSchedule (key : Block) (s : State) : Prop where
  notBusy : s.busy = false
  keyValid : s.keyValid = true
  rks : s.rks = expandKey key

theorem HoldsSchedule.inv {key : Block} {s : State} (h : HoldsSchedule key s) : s.Inv key :=
  inv_of_idle (busy_eq_false_iff.mp h.notBusy) fun _ => h.rks

/-- Under the protocol KEY_EXPAND is never rejected, and it leaves the schedule of its key. -/
theorem runCommand_keyExpand (u : CommandPorts) (newKey : Block) {key : Block} {s : State} (hs : s.Inv key) :
    ∃ t, runCommand u (.keyExpand newKey) s = .ok t ∧ HoldsSchedule newKey t := by
  obtain ⟨ready, hready, hp⟩ := waitIdle_of_inv u hs
  have hstart : KeyExpanding newKey ready.dataOut 4 (startKeyExpand newKey (accept ready)) :=
    ⟨startKeyExpand_inv newKey ready, rfl, fun _ => ⟨rfl, rfl⟩, nofun⟩
  obtain ⟨t, ht, hb, hend⟩ := runCommand_of_accepted hready (edge_keyExpand_of_idle u newKey hp) rfl
    (Nat.le_refl 40) (completesAfter_of_keyExpanding hstart rfl)
  obtain ⟨-, hkey, -⟩ := hend.complete rfl
  exact ⟨t, ht, hb, hkey, (hend.inv.schedule hkey).2⟩

/-- A block command that is accepted with the stages `fs` to come answers the result of all stages, and keeps the
schedule. -/
theorem runCommand_of_stages {u : CommandPorts} {i : Instr} {key : Block} {s a : State} {fs : List (Block → Block)}
    (hs : HoldsSchedule key s) (ha : edge (presentEdge u i) s = .next a) (herr : a.errCode = .errNone)
    (hrks : a.rks = s.rks) (hkey : a.keyValid = s.keyValid) (h : remainingStages a = fs) (hlen : fs.length = 11) :
    ∃ t, runCommand u i s = .ok t ∧ HoldsSchedule key t ∧ t.dataOut = applyStages fs a.st := by
  have hdone := completesAfter_of_remainingStages (List.ne_nil_of_length_pos (by omega)) h
  obtain ⟨t, ht, hb, hrks', hkey', hout⟩ := runCommand_of_accepted (waitIdle_of_not_busy u _ hs.notBusy) ha herr
    (by omega) hdone
  exact ⟨t, ht, ⟨hb, hkey'.trans (hkey.trans hs.keyValid), hrks'.trans (hrks.trans hs.rks)⟩, hout⟩

/-- A block command `cmd` of the host: on an engine with the schedule of `key` it answers `f` of its block and keeps
the schedule. -/
def AnswersBlocks (u : CommandPorts) (key : Block) (cmd : Block → Instr) (f : Block → Block) : Prop :=
  ∀ (data : Block) (s : State), HoldsSchedule key s →
    ∃ t, runCommand u (cmd data) s = .ok t ∧ HoldsSchedule key t ∧ t.dataOut = f data

theorem encrypt_answersBlocks (u : CommandPorts) (key : Block) :
    AnswersBlocks u key .encrypt (cipher (expandKey key)) := fun data s hs => by
  rw [← hs.rks]
  exact runCommand_of_stages hs (edge_encrypt_of_ready u data (busy_eq_false_iff.mp hs.notBusy) hs.keyValid)
    rfl rfl rfl rfl rfl

theorem decrypt_answersBlocks (u : CommandPorts) (key : Block) :
    AnswersBlocks u key .decrypt (invCipher (expandKey key)) := fun data s hs => by
  rw [← hs.rks]
  exact runCommand_of_stages hs (edge_decrypt_of_ready u data (busy_eq_false_iff.mp hs.notBusy) hs.keyValid)
    rfl rfl rfl rfl rfl

/-! ## Messages (R255, R256) -/

/-- The blocks of a message, one command each: the results in order, on an engine that keeps the schedule. -/
theorem runBlocks_of_answersBlocks {u : CommandPorts} {key : Block} {cmd : Block → Instr} {f : Block → Block}
    (hcmd : AnswersBlocks u key cmd f) (bs : List Message) {s : State} (hs : HoldsSchedule key s) :
    ∃ t, runBlocks u cmd bs s = .ok (mapBlocks f bs, t) ∧ HoldsSchedule key t := by
  induction bs generalizing s with
  | nil => exact ⟨s, rfl, hs⟩
  | cons b bs ih =>
    obtain ⟨m, hm, hm', hout⟩ := hcmd (blockOfBits b) s hs
    obtain ⟨t, ht, ht'⟩ := ih hm'
    exact ⟨t, by simp [runBlocks, hm, ht, hout, mapBlocks], ht'⟩

theorem encryptMessage_of_pad (u : CommandPorts) {m padded : Message} (kb : List Byte) {key : Block} {s : State}
    (hs : s.Inv key) (hpad : pad m = .ok padded) : ∃ t, HoldsSchedule (normalizeKey kb) t ∧
      encryptMessage u m kb s =
        .ok (mapBlocks (cipher (expandKey (normalizeKey kb))) (splitBlocks padded), t) := by
  obtain ⟨a, ha, ha'⟩ := runCommand_keyExpand u (normalizeKey kb) hs
  obtain ⟨t, ht, ht'⟩ := runBlocks_of_answersBlocks (encrypt_answersBlocks u _) (splitBlocks padded) ha'
  exact ⟨t, ht', by simp [encryptMessage, hpad, ha, ht]⟩

theorem decryptMessage_of_blocks (u : CommandPorts) {m : Message} (kb : List Byte) {key : Block} {s : State}
    (hs : s.Inv key) (hm : m.length % 128 = 0) : ∃ t,
      decryptMessage u m kb s =
        (unpad (mapBlocks (invCipher (expandKey (normalizeKey kb))) (splitBlocks m))).map fun plain => (plain, t) := by
  obtain ⟨a, ha, ha'⟩ := runCommand_keyExpand u (normalizeKey kb) hs
  obtain ⟨t, ht, -⟩ := runBlocks_of_answersBlocks (decrypt_answersBlocks u _) (splitBlocks m) ha'
  refine ⟨t, ?_⟩
  simp only [decryptMessage, hm, ha, ht]
  cases unpad (mapBlocks (invCipher (expandKey (normalizeKey kb))) (splitBlocks m)) <;> rfl

/-- Settles O57: the engine holds the schedule of the normalised key from its first command to the last block. -/
theorem messageEncryptionIsBlockwise : Obligations.MessageEncryptionIsBlockwise := by
  refine fun u m kb key s hs => ⟨fun h => ?_, fun h => ?_⟩
  · simp [encryptMessage, (paddingRule m).1 h]
  · obtain ⟨padded, hpad, -⟩ := unpad_pad h
    obtain ⟨t, ht, henc⟩ := encryptMessage_of_pad u kb hs hpad
    exact ⟨padded, t, hpad, henc, ht.inv, ht.notBusy⟩

/-- Settles O58: after the blocks only the padding can be at fault. -/
theorem messageDecryptionIsBlockwise : Obligations.MessageDecryptionIsBlockwise := by
  refine fun u m kb key s hs => ⟨fun h => by simp [decryptMessage, h], fun h padded hpadded => ?_⟩
  obtain ⟨t, ht⟩ := decryptMessage_of_blocks u kb hs h
  rw [ht, mapBlocks, ← hpadded]
  exact ⟨fun e he => by rw [he]; rfl, fun plain hplain => ⟨t, by rw [hplain]; rfl⟩⟩

/-- Settles O59: the inverse cipher undoes the cipher block by block, and unpadding undoes the padding. -/
theorem messageRoundTrip : Obligations.MessageRoundTrip := by
  intro u v m kb key s hs h
  obtain ⟨padded, hpad, hlen, hunpad⟩ := unpad_pad h
  obtain ⟨bs, hcount, hbs, rfl⟩ := exists_flatten_eq hlen
  obtain ⟨t, ht, henc⟩ := encryptMessage_of_pad u kb hs hpad
  rw [splitBlocks_flatten hbs] at henc
  have hclen := (length_mapBlocks (cipher (expandKey (normalizeKey kb))) bs).trans (congrArg (128 * ·) hcount)
  obtain ⟨t', hdec⟩ := decryptMessage_of_blocks v kb ht.inv (hclen ▸ Nat.mul_mod_right 128 _)
  rw [mapBlocks_splitBlocks_mapBlocks (invCipher_cipher _) hbs, hunpad] at hdec
  exact ⟨bs.flatten, _, t, t', hpad, by omega, hunpad, henc, hclen, hdec⟩

end Sys2Proof.Machine

/-! # Proof of the statement about reset's priority (spec/60_exceptions.md)

`edge_of_reset` says that the ports play no part at a reset edge, and every register that an output reads has one
reset value, so the outputs do not depend on the state before. -/

namespace Sys2Proof.Machine

/-- The outputs read no register that reset leaves unspecified (R46). -/
@[simp] theorem resetEdge_outputs (s : State) : (resetEdge s).outputs = ⟨0, false, false, false, 0⟩ := by
  simp [State.outputs, State.busy, ErrCode.bits]

/-- Settles O9: both edges are `resetEdge`, whose outputs are the same from every state. -/
theorem resetOverridesEverything : Obligations.ResetOverridesEverything := by
  intro c c' s
  have hreset (d : CommandPorts) (t : State) : edge ⟨true, d⟩ t = .next (resetEdge t) := edge_of_reset t rfl
  refine ⟨(hreset c s).trans (hreset c' s).symm, resetEdge s, resetEdge (resetEdge s), hreset c s, hreset c' _,
    resetEdge_inputs s, resetEdge_outputs s, ?_⟩
  rw [resetEdge_outputs, resetEdge_outputs]

end Sys2Proof.Machine

/-! # Proof of the statement about boot and throughput (spec/70_reset_and_hazards.md)

The program is statements whose edges R98 lists, so it runs one statement at a time by `runEdges`. A command followed
by as many idle edges as it has progress edges is one step of the argument: from an idle engine KEY_EXPAND, and from
one that has answered ENCRYPT, lead to an engine that has answered. -/

namespace Sys2Proof.Machine

/-! ## Statements one after the other (R98) -/

theorem runProgram_cons {u : CommandPorts} {stmt : Stmt} {rest : List Stmt} {s t : State} (hwait : stmt ≠ .wait)
    (hcheck : stmt.failedCheck s = none) (hrun : runEdges (stmt.edges u) s = .next t) :
    runProgram u (stmt :: rest) s = runProgram u rest t := by
  simp [runProgram, runStmt, hcheck, runStmtEdges_plain hwait hrun, Except.map]

/-- An idle edge writes no `err_code` (R42, R95). -/
theorem runEdges_idle_errCode {u : CommandPorts} {n : Nat} {s t : State}
    (h : runEdges (List.replicate n (idleEdge u)) s = .next t) : t.errCode = s.errCode := by
  induction n generalizing s with
  | zero => cases h; rfl
  | succ n ih =>
    rw [List.replicate_succ] at h
    cases hedge : edge (idleEdge u) s with
    | next m =>
      rw [runEdges_cons_next hedge] at h
      exact (ih h).trans (progress_errCode ((idleEdge_progress u s).symm.trans hedge))
    | fault r | refused r => simp [runEdges, hedge] at h

theorem noReset_replicate_idleEdge (u : CommandPorts) (n : Nat) : NoReset (List.replicate n (idleEdge u)) :=
  fun _ he => List.eq_of_mem_replicate he ▸ idleEdge_rst u

/-- A statement that is the one edge `e`, then idle edges: the program goes on from the state after them, with the
`err_code` that `e` left. -/
theorem runProgram_edge_idle {u : CommandPorts} {stmt : Stmt} {rest : List Stmt} {e : EdgeInputs} {n : Nat}
    {s a t : State} (hstmt : stmt.edges u = [e]) (ha : edge e s = .next a)
    (hrun : runEdges (e :: List.replicate n (idleEdge u)) s = .next t) :
    runProgram u (stmt :: .idle n :: rest) s = runProgram u rest t ∧ t.errCode = a.errCode := by
  have hwait : stmt ≠ .wait := by rintro rfl; cases hstmt
  have hcheck : stmt.failedCheck s = none := by
    cases stmt with
    | check c => cases hstmt
    | reset | nop | keyExpand | encrypt | decrypt | cmd | idle | wait => rfl
  have hstart : runEdges (stmt.edges u) s = .next a := by rw [hstmt, runEdges_cons_next ha]; rfl
  rw [runEdges_cons_next ha] at hrun
  exact ⟨(runProgram_cons hwait hcheck hstart).trans (runProgram_cons nofun rfl hrun), runEdges_idle_errCode hrun⟩

/-! ## The engine between two statements of the program -/

/-- An engine that completed an operation under the schedule of `key` and shows `out` (R41, R42). -/
structure Answered (key out : Block) (s : State) : Prop extends HoldsSchedule key s where
  done : s.done = true
  noError : s.errCode = .errNone
  dataOut : s.dataOut = out

theorem Answered.outputs {key out : Block} {s : State} (h : Answered key out s) :
    s.outputs = ⟨out, false, true, true, 0⟩ := by
  simp [State.outputs, h.notBusy, h.keyValid, h.done, h.noError, h.dataOut, ErrCode.bits]

/-- A key expansion on an idle engine, waited for, leaves its schedule and the old result (R302). -/
theorem runProgram_keyExpand (u : CommandPorts) (key : Block) (rest : List Stmt) {s : State} (hp : s.phase = .idle) :
    ∃ t, runProgram u (.keyExpand key :: .idle Config.keyExpandEdges :: rest) s = runProgram u rest t ∧
      Answered key s.dataOut t := by
  obtain ⟨-, hidle⟩ := keyExpandCommand s key u
  obtain ⟨⟨a, ha, -, -, -, herr, -⟩, hedges⟩ := hidle hp
  have hlen : (List.replicate Config.keyExpandEdges (idleEdge u)).length = 40 := List.length_replicate
  obtain ⟨t, hrun, hout, -, hend⟩ := hedges _ (noReset_replicate_idleEdge u _) hlen.le
  obtain ⟨hb, hk, hd, hrks⟩ := hend hlen
  obtain ⟨hprog, hcode⟩ := runProgram_edge_idle (stmt := .keyExpand key) (rest := rest) rfl ha hrun
  exact ⟨t, hprog, ⟨hb, hk, hrks⟩, hd, hcode.trans herr, hout⟩

/-- An encryption on an engine that has answered, waited for, leaves the ciphertext of its block (R302). -/
theorem runProgram_encrypt (u : CommandPorts) (data : Block) (rest : List Stmt) {key out : Block} {s : State}
    (hs : Answered key out s) :
    ∃ t, runProgram u (.encrypt data :: .idle Config.blockEdges :: rest) s = runProgram u rest t ∧
      Answered key (cipher (expandKey key) data) t := by
  obtain ⟨-, -, hready⟩ := encryptCommand s data u
  obtain ⟨ha, hedges⟩ := hready (busy_eq_false_iff.mp hs.notBusy) hs.keyValid
  have hlen : (List.replicate Config.blockEdges (idleEdge u)).length = 11 := List.length_replicate
  obtain ⟨t, hrun, hrks, hk, -, hend⟩ := hedges _ (noReset_replicate_idleEdge u _) hlen.le
  obtain ⟨hb, hd, hout⟩ := hend hlen
  obtain ⟨hprog, hcode⟩ := runProgram_edge_idle (stmt := .encrypt data) (rest := rest) rfl ha hrun
  exact ⟨t, hprog, ⟨hb, hk, hrks.trans hs.rks⟩, hd, hcode, hs.rks ▸ hout⟩

/-! ## Boot and blocks (R293, R303) -/

/-- The statements of `blockProgram` for its blocks. -/
def blockStmts (bs : List Block) : List Stmt := bs.flatMap fun b => [.encrypt b, .idle Config.blockEdges]

theorem blockStmts_cons (b : Block) (bs : List Block) :
    blockStmts (b :: bs) = .encrypt b :: .idle Config.blockEdges :: blockStmts bs := rfl

theorem blockProgram_eq (key : Block) (bs : List Block) :
    blockProgram key bs = .reset :: .keyExpand key :: .idle Config.keyExpandEdges :: blockStmts bs := rfl

/-- A list of blocks leaves the ciphertext of its last block, or what was there if it has none. -/
theorem runProgram_blocks (u : CommandPorts) {key out : Block} (bs : List Block) {s : State}
    (hs : Answered key out s) :
    ∃ t, runProgram u (blockStmts bs) s = .ok t ∧
      Answered key ((bs.map (cipher (expandKey key))).getLastD out) t := by
  induction bs generalizing out s with
  | nil => exact ⟨s, rfl, hs⟩
  | cons b bs ih =>
    obtain ⟨m, hm, hm'⟩ := runProgram_encrypt u b (blockStmts bs) hs
    obtain ⟨t, ht, ht'⟩ := ih hm'
    rw [List.map_cons, List.getLastD_cons]
    exact ⟨t, hm.trans ht, ht'⟩

/-- From every state the program runs to its end (R293). -/
theorem runProgram_blockProgram (u : CommandPorts) (key : Block) (bs : List Block) (s : State) :
    ∃ t, runProgram u (blockProgram key bs) s = .ok t ∧
      Answered key ((bs.map (cipher (expandKey key))).getLastD 0) t := by
  have hreset : runEdges (Stmt.edges u .reset) s = .next (resetEdge s) := runEdges_cons_next (edge_of_reset s rfl)
  obtain ⟨m, hm, hm'⟩ := runProgram_keyExpand u key (blockStmts bs) (resetEdge_phase s)
  obtain ⟨t, ht, ht'⟩ := runProgram_blocks u bs hm'
  exact ⟨t, (runProgram_cons (stmt := .reset) nofun rfl hreset).trans (hm.trans ht), ht'⟩

/-- An accepting edge and 11 progress edges for each block (R303). -/
theorem length_edges_blockStmts (u : CommandPorts) (bs : List Block) :
    ((blockStmts bs).flatMap (Stmt.edges u)).length = 12 * bs.length := by
  induction bs with
  | nil => rfl
  | cons b bs ih =>
    simp only [blockStmts_cons, List.flatMap_cons, List.length_append, ih, Stmt.edges, List.length_cons,
      List.length_nil, List.length_replicate, Config.blockEdges]
    omega

/-- The edges of R303: one for the reset, 41 for the key, 12 for each block. -/
theorem length_edges_blockProgram (u : CommandPorts) (key : Block) (bs : List Block) :
    ((blockProgram key bs).flatMap (Stmt.edges u)).length = 1 + 41 + 12 * bs.length := by
  simp only [blockProgram_eq, List.flatMap_cons, List.length_append, length_edges_blockStmts, Stmt.edges,
    List.length_singleton, List.length_replicate, Config.keyExpandEdges]
  omega

/-- Settles O60: reset makes the engine idle, the key expansion makes it answer, and each block keeps it so. -/
theorem bootAndEncryptBlocks : Obligations.BootAndEncryptBlocks := by
  intro u key b bs s
  obtain ⟨t, hrun, ht⟩ := runProgram_blockProgram u key (bs ++ [b]) s
  rw [List.map_append, List.map_singleton, List.getLastD_concat] at ht
  exact ⟨by simpa using length_edges_blockProgram u key (bs ++ [b]), t, hrun, ht.outputs, ht.rks⟩

end Sys2Proof.Machine
